-- ==== Sys2Proof/Machine/Literals.lean ====
section
/-! DEFINITION. The document's fixed parameters (00_scope.md R7), each a named constant, "so that a correction is one
edit" (93_implementation_defined.md section 2; log 12). Every type and every function of the datapath is written with
these names. -/

namespace Sys2Proof.Machine

/-- WORD: "unsigned 128-bit integers" (R7). -/
abbrev wordBits : Nat := 128

/-- NWORDS: words of the hash state, "exactly 4"; also the 4 of DynamicSalt's base word index r mod 4 (R7, R71). -/
abbrev wordCount : Nat := 4

/-- ROUNDS: the round index r is in [0, 256) (R7). -/
abbrev roundCount : Nat := 256

/-- UNITS_PER_BYTE: "one unit per round per input byte" (R7). -/
abbrev unitsPerByte : Nat := roundCount

/-- ROTR_NLT, the right rotation inside NonLinearTransform (R7). -/
def nltRotation : Nat := 23

/-- NLT_MOD = 2^64 - 1 (R7). -/
def nltModulus : Nat := 0xFFFFFFFFFFFFFFFF

/-- The period of the rotation schedule, the 16 of (r mod 16) + 8*i (R7). -/
def rotPeriod : Nat := 16

/-- The rotation schedule's step from word to word, the 8 of (r mod 16) + 8*i (R7). -/
def rotWordStep : Nat := 8

/-- SALT_MASK (R7). -/
def saltMask : BitVec wordBits := 0xff

/-- KEEP: low-order bytes of each word kept in the digest (R7). -/
def keepBytes : Nat := 8

/-- DIGEST_BYTES (R7). -/
abbrev digestBytes : Nat := 32

end Sys2Proof.Machine
end

