-- ==== Sys2Proof/Word.lean ====
section
/-! DEFINITION. The machine's word types and the hash state, with its plainest operations:
reading a word, replacing a word, XOR word by word (spec 00_scope.md R7, R11, R12; 10_state.md R19). -/

namespace Sys2Proof

/-- An 8-bit unsigned byte (R11). -/
abbrev Byte := BitVec 8

/-- A 32-bit register or command word (R36, R50). -/
abbrev Word32 := BitVec 32

/-- The document's WORD: an unsigned 128-bit integer (R7). `+` and `*` wrap modulo 2^128 (R12). -/
abbrev U128 := BitVec Machine.wordBits

/-- HashState: "an ordered sequence of exactly 4 unsigned 128-bit integers" (R19). -/
structure HashState where
  words : Vector U128 Machine.wordCount
  deriving DecidableEq, Repr, Inhabited

/-- A digest, or the block's DIGEST register: 32 bytes (R7, R24). -/
abbrev Digest := Vector Byte Machine.digestBytes

namespace HashState

/-- Word i of the state. -/
def get (s : HashState) (i : Fin Machine.wordCount) : U128 := s.words[i]

/-- The state with word i replaced by v. -/
def set (s : HashState) (i : Fin Machine.wordCount) (v : U128) : HashState := ⟨s.words.set i v⟩

/-- The state of zero words: the XOR over an empty set (R13). -/
def zero : HashState := ⟨Vector.replicate Machine.wordCount 0⟩

/-- Word-wise XOR, the document's merge (R17). -/
def xor (a b : HashState) : HashState := ⟨Vector.ofFn fun i => a.get i ^^^ b.get i⟩

end HashState

end Sys2Proof
end

