-- ==== Sys2Proof/Syntax.lean ====
section
/-! DEFINITION. The machine's syntax: the five commands of spec/opcode_table.json, the assembler's lines
(30_encoding.md R58) and the host's bus operations (00_scope.md R15; 30_encoding.md R59). -/

namespace Sys2Proof

/-- The commands (R51, R57), one constructor per row of spec/opcode_table.json. DATA is an operand of ABSORB only:
"NOP, INIT, FINAL and CLRERR ignore DATA: any value of word[15:8] gives the same command" (R52; log 13). -/
inductive Instr where
  /-- NOP, OP 0x00 (R92). -/
  | nop
  /-- INIT, OP 0x01 (R76). -/
  | init
  /-- ABSORB d, OP 0x02 (R77); d is DATA, "an 8-bit unsigned byte" (R52). -/
  | absorb (d : Byte)
  /-- FINAL, OP 0x03 (R86). -/
  | final
  /-- CLRERR, OP 0x04 (R93). -/
  | clrerr
  deriving DecidableEq, Repr

/-- One line of assembler source (R58). The operand of ABSORB and of `.word` is the number as it is written, so that
"A value of d outside 0..255 is an assembler error" says something. -/
inductive AsmLine where
  | nop
  | init
  | absorb (d : Nat)
  | final
  | clrerr
  /-- `.word w`: "the 32-bit value w, any pattern (used to write illegal words in tests)". -/
  | word (w : Nat)
  deriving DecidableEq, Repr

/-- The width of a host access. 32 bits is the only one the bus moves (R36); "any other width (8, 16 or 64 bits)" is
a host protocol violation (R37). -/
inductive AccessWidth where
  | w8
  | w16
  | w32
  | w64
  deriving DecidableEq, Repr

/-- One operation of the host (R15, R59, R115). Offsets are those of the 256-byte window (R34). -/
inductive HostOp where
  /-- MemWrite(off, width, v). A write that is not 32 bits wide is refused, whatever v. -/
  | write (width : AccessWidth) (off : Byte) (v : Word32)
  /-- MemRead(off, width). -/
  | read (width : AccessWidth) (off : Byte)
  /-- WAIT: read STATUS until bit 0 is 0 (R59). -/
  | wait
  /-- Reset: apply and release rst_n, "a host step that sets these values at once" (R115). -/
  | reset
  /-- Drive rst_n to 0 and hold it there (R115). -/
  | holdReset
  /-- Drive rst_n to 1 (R115). -/
  | releaseReset
  deriving DecidableEq, Repr

end Sys2Proof
end

