-- ==== Sys2Proof/WellFormed.lean ====
section
/-! DEFINITION. Well-formed terms of the syntax. A command's only operand is a byte and its type says so; the
assembler's numbers are checked here (30_encoding.md R52, R58). Whether a host access is one the bus defines
(20_memory.md R36) is `HostOp.legal` of Machine/Operands.lean. -/

namespace Sys2Proof

/-- A command is well formed: DATA is "an 8-bit unsigned byte" (R52) by its type, and no other operand exists. -/
def Instr.wf : Instr → Bool
  | .nop => true
  | .init => true
  | .absorb d => d.toNat < 256
  | .final => true
  | .clrerr => true

/-- An assembler line is well formed: "A value of d outside 0..255 is an assembler error", and `.word` takes a 32-bit
value (R58). -/
def AsmLine.wf : AsmLine → Bool
  | .nop => true
  | .init => true
  | .absorb d => d < 256
  | .final => true
  | .clrerr => true
  | .word w => w < 2 ^ 32

end Sys2Proof
end

