-- ==== Sys2Proof/Decode.lean ====
section
/-! DEFINITION. The command decoder (30_encoding.md R50-R57), total on words and on byte lists, and after it the
encoder and the assembler (R51, R58). -/

namespace Sys2Proof

/-- Why a word or a byte list is no command. -/
inductive IllegalReason where
  /-- RSVD = word[31:16] is not 0 (R53). -/
  | reservedBitsSet
  /-- RSVD is 0 and OP is in 0x05..0xFF (R54). -/
  | unassignedOpcode
  /-- The bytes are not the four of one word: "every command is exactly one 32-bit CMD write" (R56). -/
  | notOneWord
  deriving DecidableEq, Repr

/-- What decoding answers: one command, or ILLEGAL (R57). -/
inductive Decoded where
  | command (i : Instr)
  | illegal (why : IllegalReason)
  deriving DecidableEq, Repr

/-- OP = word[7:0] (R50). -/
def opField (w : Word32) : Byte := w.extractLsb' 0 8

/-- DATA = word[15:8] (R50). -/
def dataField (w : Word32) : Byte := w.extractLsb' 8 8

/-- RSVD = word[31:16] (R50). -/
def rsvdField (w : Word32) : BitVec 16 := w.extractLsb' 16 16

/-- decode(w) (R57). -/
def decode (w : Word32) : Decoded :=
  if rsvdField w ≠ 0 then .illegal .reservedBitsSet
  else match (opField w).toNat with
    | 0x00 => .command .nop
    | 0x01 => .command .init
    | 0x02 => .command (.absorb (dataField w))
    | 0x03 => .command .final
    | 0x04 => .command .clrerr
    | _ => .illegal .unassignedOpcode

/-- A word from its four bytes, the byte at the lowest offset in bits 7:0 (R38). -/
def wordOfBytes (b0 b1 b2 b3 : Byte) : Word32 := b3 ++ b2 ++ b1 ++ b0

/-- The four bytes of a word, lowest offset first: byte j is v[8j+7:8j] (R38). -/
def bytesOfWord (v : Word32) : List Byte :=
  [v.extractLsb' 0 8, v.extractLsb' 8 8, v.extractLsb' 16 8, v.extractLsb' 24 8]

/-- The decoder on any bytes: four of them are a command word, any other number is none (R56). -/
def decodeBytes : List Byte → Decoded
  | [b0, b1, b2, b3] => decode (wordOfBytes b0 b1 b2 b3)
  | _ => .illegal .notOneWord

/-- The command, where decoding gives one. -/
def Decoded.toOption : Decoded → Option Instr
  | .command i => some i
  | .illegal _ => none

/-- The instruction this decoder reads from bits numbered as spec/opcode_table.json numbers them; bits at and above
nbits are 0. -/
def decodeTableWord (nbits w : Nat) : Option Instr :=
  (decodeBytes (bytesOfWord (BitVec.ofNat 32 (w % 2 ^ nbits)))).toOption

/-- The opcode of a command (R51). -/
def Instr.opcode : Instr → Byte
  | .nop => 0x00
  | .init => 0x01
  | .absorb _ => 0x02
  | .final => 0x03
  | .clrerr => 0x04

/-- The DATA byte an assembler writes: d for ABSORB d, and "An assembler writes DATA = 0 for NOP, INIT, FINAL and
CLRERR" (R58). -/
def Instr.data : Instr → Byte
  | .absorb d => d
  | .nop | .init | .final | .clrerr => 0

/-- The command word of an instruction: RSVD = 0, DATA, OP (R50, R51, R58). -/
def encode (i : Instr) : Word32 := (0 : BitVec 16) ++ i.data ++ i.opcode

/-- The bytes of the command word, lowest offset first (R38). -/
def encodeBytes (i : Instr) : List Byte := bytesOfWord (encode i)

/-- The mask of spec/opcode_table.json, common to its five rows (R51). -/
def tableMask : Word32 := 0xFFFF00FF

/-- The match word of an instruction's row (R51). -/
def Instr.matchWord : Instr → Word32
  | .nop => 0x00000000
  | .init => 0x00000001
  | .absorb _ => 0x00000002
  | .final => 0x00000003
  | .clrerr => 0x00000004

/-- The word of an assembler line, or none where the line is an assembler error (R58). -/
def assemble (l : AsmLine) : Option Word32 :=
  if l.wf then
    match l with
    | .nop => some (encode .nop)
    | .init => some (encode .init)
    | .absorb d => some (encode (.absorb (BitVec.ofNat 8 d)))
    | .final => some (encode .final)
    | .clrerr => some (encode .clrerr)
    | .word w => some (BitVec.ofNat 32 w)
  else none

end Sys2Proof
end

