-- ==== Sys2Proof/Config.lean ====
section
/-! DEFINITION. What is fixed when the block is built and the spec leaves OPEN (00_scope.md R8, R9, R10, R16),
and the free value of an unspecified read (20_memory.md R44). Each is a constant with no body, so nothing can be
proved of its value: a theorem about the machine holds for every value of it. -/

namespace Sys2Proof

/-- The two constants that the datapath's functions take as arguments (R8, R9, R16). -/
structure Params where
  /-- PRIME, a 128-bit unsigned constant; nothing is assumed of it (R8). -/
  prime : U128
  /-- IV[0..3], the "fixed initial 4-word state constants" (R9). -/
  iv : HashState
  deriving DecidableEq, Repr, Inhabited

/-- PRIME of this block: OPEN (R8, D20; log 4). -/
opaque Config.prime : U128

/-- IV of this block: OPEN (R9, D21; log 4). -/
opaque Config.iv : HashState

/-- The block's PRIME and IV, as the datapath's functions take them. -/
def Config.params : Params := ⟨Config.prime, Config.iv⟩

/-- BASE_ADDR, the system address of offset 0x00: OPEN (R10, D2; log 5). -/
opaque Config.baseAddr : Nat

/-- LAT_INIT less one: OPEN (R10, D30; log 5). -/
opaque Config.latInitExtra : Nat

/-- LAT_ABSORB less one: OPEN (R10, D30; log 5). -/
opaque Config.latAbsorbExtra : Nat

/-- LAT_FINAL less one: OPEN (R10, D30; log 5). -/
opaque Config.latFinalExtra : Nat

/-- LAT_INIT: clock cycles from acceptance to completion, "an integer of at least 1" (R10). No step reads it. -/
def Config.latInit : Nat := Config.latInitExtra + 1

/-- LAT_ABSORB, at least 1 (R10). No step reads it. -/
def Config.latAbsorb : Nat := Config.latAbsorbExtra + 1

/-- LAT_FINAL, at least 1 (R10). No step reads it. -/
def Config.latFinal : Nat := Config.latFinalExtra + 1

/-- The value of the n-th unspecified read: a free value (R44 "A model draws it freely on each such read (two reads
may differ)"; R115 for reads while rst_n is 0; log 3). -/
opaque Config.freeRead : Nat → Word32

end Sys2Proof
end

