-- ==== Sys2Proof/Machine/Datapath.lean ====
section
/-! DEFINITION. The datapath's pure functions, written with the named literals of Literals.lean (00_scope.md R7):
rotations, NonLinearTransform, StateMixer (40_nonlinear_transform.md), the unit computation, the contribution of a byte
and the accumulation of a message (41_accumulator.md), the finalizer (42_finalizer.md).
PRIME and IV are arguments, so that each function can be evaluated at the spec's test parameter sets. -/

namespace Sys2Proof.Machine

/-- rotl(v, n), n in 0..127 (R64). -/
def rotl (v : U128) (n : Nat) : U128 :=
  if n = 0 then v else (v <<< n) ||| (v >>> (wordBits - n))

/-- rotr(v, n), n in 0..127 (R65). -/
def rotr (v : U128) (n : Nat) : U128 :=
  if n = 0 then v else (v >>> n) ||| (v <<< (wordBits - n))

/-- NLT(value) (R66): the product wraps modulo 2^128 first, and then the integer remainder by 2^64 - 1 is taken. -/
def nlt (prime value : U128) : U128 :=
  let t := value ^^^ rotr value nltRotation
  let p := t * prime
  BitVec.ofNat wordBits (p.toNat % nltModulus)

/-- The left rotation of word i in round r: (r mod 16) + 8*i (R68, R83). -/
def rotAmount (r : Fin roundCount) (i : Fin wordCount) : Nat := r.val % rotPeriod + rotWordStep * i.val

/-- Step i of StateMixer (R68). The neighbour is read from the state this step starts in, so step 3 reads the word 0
that step 0 wrote (R69; spec 90_conflicts.md C1; log 12). -/
def mixStep (prime m : U128) (r : Fin roundCount) (t : HashState) (i : Fin wordCount) : HashState :=
  let x := rotl ((t.get i ^^^ m) + prime) (rotAmount r i)
  t.set i (nlt prime x ^^^ t.get (i + 1))

/-- StateMixer(s, m, r): steps i = 0, 1, 2, 3 in that order (R68). -/
def stateMixer (prime : U128) (s : HashState) (m : U128) (r : Fin roundCount) : HashState :=
  (List.finRange wordCount).foldl (mixStep prime m r) s

/-- r mod NWORDS, the base word DynamicSalt reads (R71, R83). -/
def saltWord (r : Fin roundCount) : Fin wordCount := Fin.ofNat wordCount r.val

/-- DynamicSalt(base, r) (R71). -/
def dynamicSalt (prime : U128) (base : HashState) (r : Fin roundCount) : U128 :=
  (BitVec.ofNat wordBits r.val + prime) ^^^ (base.get (saltWord r) &&& saltMask)

/-- mixedByte(base, r, b) (R72). -/
def mixedByte (prime : U128) (base : HashState) (r : Fin roundCount) (b : Byte) : U128 :=
  b.setWidth wordBits + dynamicSalt prime base r

/-- UnitComputation(base, r, b) (R73). -/
def unitComputation (prime : U128) (base : HashState) (r : Fin roundCount) (b : Byte) : HashState :=
  stateMixer prime base (mixedByte prime base r b) r

/-- The rounds of one byte: 0, 1, ..., 255 (R7, R77). -/
def allRounds : List (Fin roundCount) := List.finRange roundCount

/-- XOR over a list of states, word by word; the zero state for an empty list (R13). -/
def xorAll (l : List HashState) : HashState := l.foldr HashState.xor HashState.zero

/-- The UnitResults of one byte, computed in the order of rounds given, each from the IV (R32, R73, R77). -/
def unitResults (p : Params) (order : List (Fin roundCount)) (b : Byte) : List HashState :=
  order.map fun r => unitComputation p.prime p.iv r b

/-- C(b), the contribution of one byte: the XOR of its 256 UnitResults (R74). -/
def contribution (p : Params) (b : Byte) : HashState := xorAll (unitResults p allRounds b)

/-- Accumulate(B) = IV ^ XOR_j C(B[j]), word-wise (R75). -/
def accumulate (p : Params) (bytes : List Byte) : HashState :=
  p.iv.xor (xorAll (bytes.map (contribution p)))

/-- Byte k of the little-endian representation of a word: v[8k+7:8k] (R85). -/
def byteOfU128 (v : U128) (k : Nat) : Byte := v.extractLsb' (8 * k) 8

/-- Finalize(S): digest byte 8i + k is byte k of word i, for k in 0..7 (R85). -/
def finalize (s : HashState) : Digest :=
  Vector.ofFn fun n : Fin digestBytes =>
    byteOfU128 (s.get ⟨n.val / keepBytes, Nat.div_lt_of_lt_mul n.isLt⟩) (n.val % keepBytes)

end Sys2Proof.Machine
end

