-- ==== Sys2Proof/Machine/State.lean ====
section
/-! DEFINITION. The machine's state as plain data (10_state.md R18), its faults and refusals, and the state right
after reset (70_reset_and_hazards.md R115). -/

namespace Sys2Proof.Machine

/-- A command that was accepted and is not yet complete: "exactly one accepted command among INIT, ABSORB(d) and
FINAL, with its DATA byte d for ABSORB" (R30). -/
inductive Pending where
  | init
  | absorb (d : Byte)
  | final
  deriving DecidableEq, Repr

/-- The two agents (R15). -/
inductive Agent where
  | host
  | core
  deriving DecidableEq, Repr

/-- The reset input, and whether reset has been applied since power-up (R115, R119). -/
inductive ResetPhase where
  /-- rst_n is 1 and no reset has been applied since power-up: "before it the state is unknown" (R119). The host's
  operations but a reset are refused, and the core does not move (log 8). -/
  | unknown
  /-- rst_n is 0 (R115). -/
  | held
  /-- rst_n is 1, after a reset. -/
  | running
  deriving DecidableEq, Repr

/-- Why the machine stops with a fault. There is no constructor: "The block never traps, never vectors and never
stops" (R106), and its two errors are sticky flags (R101). -/
inductive Fault where
  deriving DecidableEq, Repr

/-- Why a step has no meaning. -/
inductive Refusal where
  /-- Raised by no arm of `exec`: every command of the table has its meaning. Safe. -/
  | notModelled (mnemonic : String)
  /-- Raised by a host access that is not 32 bits wide or not at a multiple of 4: "A model gives the access no step
  (it refuses)" (R37, R104; log 6). Safe. -/
  | hostProtocolViolation
  /-- Raised by a host operation other than a reset while no reset has been applied since power-up: the state is
  unknown (R119), and a model refuses (spec 93_implementation_defined.md section 1; log 8). Safe. -/
  | stateUnknownBeforeReset
  deriving DecidableEq, Repr

/-- The machine's state. The first six fields are the spec's inventory (R18), STATUS.BUSY being computed from
`pending` (R27); `phase` is the reset input (R115). The last four are the model's own: the host agent, the order
in which the agents move, and the counter of free values (log 2, 3, 9). -/
structure State where
  /-- ACC[0..3] (R19). -/
  acc : HashState
  /-- DIGEST[0..31] (R24). -/
  digest : Digest
  /-- LEN (R25). -/
  len : Word32
  /-- STATUS.ERR_ILLEGAL (R28). -/
  errIllegal : Bool
  /-- STATUS.ERR_OVERRUN (R29). -/
  errOverrun : Bool
  /-- PENDING (R30). -/
  pending : Option Pending
  /-- rst_n, and whether reset was applied (R115, R119). -/
  phase : ResetPhase
  /-- The operations the host has still to issue, in the order it issues them (R45). -/
  program : List HostOp
  /-- The values the host's reads returned, oldest first (R94; log 15). -/
  replies : List Word32
  /-- Which agent moves at each step while a command is pending; the core when the list is used up (R15; log 2). -/
  turns : List Agent
  /-- How many unspecified read values have been drawn (R44; log 3). -/
  draws : Nat
  deriving DecidableEq, Repr

/-- The machine right after reset: every element of R18 at its reset value (R115). The model's own fields are empty
(log 2, 3, 9): nothing has been asked of the block. -/
def State.reset : State where
  acc := Config.iv
  digest := Vector.replicate digestBytes 0
  len := 0
  errIllegal := false
  errOverrun := false
  pending := none
  phase := .running
  program := []
  replies := []
  turns := []
  draws := 0

end Sys2Proof.Machine
end

