-- ==== Sys2Proof/Machine/Operands.lean ====
section
/-! DEFINITION. The operand forms of a host access: the register that an offset names (20_memory.md R35), the accesses
the bus defines (R36, R37), the system address of an offset (00_scope.md R10; 20_memory.md R34), and the order of
command and pending command (43_control_and_host.md R90). -/

namespace Sys2Proof.Machine

/-- The registers of the window, one constructor per row of the register map (R35). -/
inductive Register where
  | id
  | status
  | cmd
  | len
  /-- 0x10, 0x14, 0x18, 0x1C. -/
  | reserved (k : Fin 4)
  /-- DIGEST_Wk at 0x20 + 4k. -/
  | digestW (k : Fin 8)
  /-- ACC_i_k at 0x40 + 16i + 4k. -/
  | accSlice (i k : Fin 4)
  /-- 0x80 + 4k, up to 0xFC. -/
  | unmapped (k : Fin 32)
  deriving DecidableEq, Repr

/-- The offset of a register (R35). -/
def Register.offset : Register → Byte
  | .id => 0x00
  | .status => 0x04
  | .cmd => 0x08
  | .len => 0x0C
  | .reserved k => BitVec.ofNat 8 (0x10 + 4 * k.val)
  | .digestW k => BitVec.ofNat 8 (0x20 + 4 * k.val)
  | .accSlice i k => BitVec.ofNat 8 (0x40 + 16 * i.val + 4 * k.val)
  | .unmapped k => BitVec.ofNat 8 (0x80 + 4 * k.val)

/-- The register that holds an offset's word, by the word's index off[7:2] (R35; the port addr[7:2] of D1). -/
def registerAt (off : Byte) : Register :=
  let n := off.toNat / 4
  if n = 0 then .id
  else if n = 1 then .status
  else if n = 2 then .cmd
  else if n = 3 then .len
  else if n < 8 then .reserved (Fin.ofNat 4 n)
  else if n < 16 then .digestW (Fin.ofNat 8 n)
  else if n < 32 then .accSlice (Fin.ofNat 4 (n / 4)) (Fin.ofNat 4 n)
  else .unmapped (Fin.ofNat 32 n)

/-- The registers whose read is unspecified while BUSY = 1: ACC_i_k, DIGEST_Wk and LEN (R44). -/
def Register.isResult : Register → Bool
  | .len | .digestW _ | .accSlice _ _ => true
  | .id | .status | .cmd | .reserved _ | .unmapped _ => false

/-- "Every host access is a 32-bit access at an offset that is a multiple of 4" (R36). -/
def accessLegal (width : AccessWidth) (off : Byte) : Bool :=
  width = .w32 && off.toNat % 4 = 0

/-- An operation that makes no host protocol violation (R37, R97(a)). -/
def hostOpLegal : HostOp → Bool
  | .write width off _ => accessLegal width off
  | .read width off => accessLegal width off
  | .wait | .reset | .holdReset | .releaseReset => true

/-- The system address of an offset (R34: "Offsets in this spec are relative to BASE_ADDR"). -/
def systemAddress (off : Byte) : Nat := Config.baseAddr + off.toNat

/-- The offset that a system address selects, or none outside the 256-byte window (R34). -/
def windowOffset (addr : Nat) : Option Byte :=
  if Config.baseAddr ≤ addr ∧ addr < Config.baseAddr + 256 then
    some (BitVec.ofNat 8 (addr - Config.baseAddr))
  else none

/-- The commands that a CMD write accepts and CoreComplete performs later: INIT, ABSORB and FINAL (R90). NOP and
CLRERR complete within the write. -/
def pendingOf : Instr → Option Pending
  | .init => some .init
  | .absorb d => some (.absorb d)
  | .final => some .final
  | .nop | .clrerr => none

/-- The command that a pending command is. -/
def Pending.toInstr : Pending → Instr
  | .init => .init
  | .absorb d => .absorb d
  | .final => .final

/-- The clock cycles a pending command takes: a function of the command alone, not of its DATA (R10, R126; log 5). No
step reads it. -/
def Pending.latency : Pending → Nat
  | .init => Config.latInit
  | .absorb _ => Config.latAbsorb
  | .final => Config.latFinal

end Sys2Proof.Machine
end

