-- ==== Sys2Proof/Machine/Flags.lean ====
section
/-! DEFINITION. The STATUS register and everything that sets or clears its three fields (10_state.md R26-R29, R33;
60_exceptions.md R102, R103). There is no other flag. -/

namespace Sys2Proof.Machine

/-- STATUS.BUSY: "1 exactly when PENDING is not none" (R27). -/
def State.busy (s : State) : Bool := s.pending.isSome

/-- The STATUS word {29'b0, ERR_OVERRUN, ERR_ILLEGAL, BUSY} (R26, R94). -/
def State.statusWord (s : State) : Word32 :=
  (0 : BitVec 29) ++ BitVec.ofBool s.errOverrun ++ BitVec.ofBool s.errIllegal ++ BitVec.ofBool s.busy

/-- raise IllegalCommand: "STATUS.ERR_ILLEGAL <- 1; nothing else changes" (R102). -/
def State.raiseIllegalCommand (s : State) : State := { s with errIllegal := true }

/-- raise CommandOverrun: "STATUS.ERR_OVERRUN <- 1", the pending command undisturbed (R103). -/
def State.raiseCommandOverrun (s : State) : State := { s with errOverrun := true }

/-- Both sticky flags to 0 (R93). -/
def State.clearErrors (s : State) : State := { s with errIllegal := false, errOverrun := false }

end Sys2Proof.Machine
end

