-- ==== Sys2Proof/Machine/Ops.lean ====
section
/-! DEFINITION. The named operations over the machine's registers: loading the IV, merging a byte, producing the
digest, accepting and retiring a command, register values and reads, reset, and whose turn it is. There is no
exception entry and no exception return to write here: "The block never traps, never vectors and never stops: no state
is saved, no mode changes, and there is no trap entry, trap return or nesting" (60_exceptions.md R106); the two errors
are the `raise` operations of Machine/Flags.lean. -/

namespace Sys2Proof.Machine

/-- ACC <- IV, LEN <- 0: the state initializer (R76). -/
def State.loadIv (p : Params) (s : State) : State := { s with acc := p.iv, len := 0 }

/-- ACC <- ACC ^ C(d) word-wise, LEN <- (LEN + 1) mod 2^32 (R77). -/
def State.mergeByte (p : Params) (d : Byte) (s : State) : State :=
  { s with acc := s.acc.xor (contribution p d), len := s.len + 1 }

/-- DIGEST <- Finalize(ACC), from ACC before this command, then ACC <- IV, LEN <- 0 (R86). -/
def State.produceDigest (p : Params) (s : State) : State :=
  { s with digest := finalize s.acc, acc := p.iv, len := 0 }

/-- PENDING <- c; STATUS.BUSY becomes 1 (R90). -/
def State.acceptCommand (c : Pending) (s : State) : State := { s with pending := some c }

/-- PENDING <- none; STATUS.BUSY becomes 0 (R91). -/
def State.retireCommand (s : State) : State := { s with pending := none }

/-- Every element of R18 to its reset value, with rst_n left as given; the host's program, its replies, the turns and
the draw counter are not the block's and stay (R115, R117; log 7). PRIME and IV are not reset (R118). -/
def State.applyReset (phase : ResetPhase) (s : State) : State :=
  { s with
    acc := Config.iv, digest := Vector.replicate digestBytes 0, len := 0, errIllegal := false, errOverrun := false,
    pending := none, phase := phase }

/-- The host has a value on rdata. -/
def State.reply (v : Word32) (s : State) : State := { s with replies := s.replies ++ [v] }

/-- One unspecified read value has been drawn (R44). -/
def State.drawOne (s : State) : State := { s with draws := s.draws + 1 }

/-- The k-th 32-bit slice of a 128-bit word, least significant slice first (R40). -/
def sliceOfU128 (v : U128) (k : Fin 4) : Word32 := v.extractLsb' (32 * k.val) 32

/-- DIGEST_Wk: digest bytes 4k to 4k+3, the lowest in bits 7:0 (R39). -/
def digestWord (d : Digest) (k : Fin 8) : Word32 :=
  wordOfBytes (d[4 * k.val]'(by show _ < 32; omega)) (d[4 * k.val + 1]'(by show _ < 32; omega)) (d[4 * k.val + 2]'(by show _ < 32; omega))
    (d[4 * k.val + 3]'(by show _ < 32; omega))

/-- The ID register's constant: "M", "P", "H", "C" from bit 31 down (R35). -/
def idValue : Word32 := 0x4D504843

/-- The exact value of a register (R94, its unspecified cases apart). -/
def State.registerValue (s : State) : Register → Word32
  | .id => idValue
  | .status => s.statusWord
  | .cmd => 0
  | .len => s.len
  | .reserved _ => 0
  | .digestW k => digestWord s.digest k
  | .accSlice i k => sliceOfU128 (s.acc.get i) k
  | .unmapped _ => 0

/-- Whether a read returns an unspecified value: a result register while BUSY = 1 (R44), and any register while rst_n
is 0 (R115). -/
def State.readUnspecified (s : State) (r : Register) : Bool :=
  s.phase = .held || (s.busy && r.isResult)

/-- The value a read of a register returns now (R44, R94, R115): its exact value, or the next free value. -/
def State.readValue (s : State) (r : Register) : Word32 :=
  if s.readUnspecified r then Config.freeRead s.draws else s.registerValue r

/-- The state after that read: only an unspecified value uses up a draw. "Every read is free of side effects" (R42). -/
def State.afterRead (s : State) (r : Register) : State :=
  if s.readUnspecified r then s.drawOne else s

/-- The byte at an offset of the window, through the register that holds it: byte lane off[1:0] (R38). -/
def State.windowByte (s : State) (off : Byte) : Byte :=
  (s.registerValue (registerAt off)).extractLsb' (8 * (off.toNat % 4)) 8

/-- Which agent moves. CoreComplete is enabled exactly when a command is pending (R15, R91) and the block is not in
reset (R115); then the next turn says who moves, and the core moves when the list of turns is used up (log 2). DESIGN
CHOICE: in the phase `unknown`, before the first reset, where rst_n is 1 but R119 leaves the state unknown, CoreComplete
is not enabled whatever `pending` holds, and the host moves (log 8). -/
def State.mover (s : State) : Agent :=
  match s.phase, s.pending with
  | .running, some _ => s.turns.head?.getD .core
  | _, _ => .host

/-- The state with that turn used up: turns are used only while the core's step is enabled, so none
is used in the phase `unknown` (log 2, log 8). -/
def State.takeTurn (s : State) : State :=
  match s.phase, s.pending with
  | .running, some _ => { s with turns := s.turns.tail }
  | _, _ => s

/-- Continue from a next state; a fault or a refusal stays. -/
def andThen (o : Host.Outcome State Fault Refusal) (f : State → Host.Outcome State Fault Refusal) :
    Host.Outcome State Fault Refusal :=
  match o with
  | .next s => f s
  | .fault r => .fault r
  | .refused r => .refused r

end Sys2Proof.Machine
end

