-- ==== Sys2Proof/Machine/Accumulator.lean ====
section
/-! DEFINITION. The two commands of the accumulator, INIT and ABSORB (41_accumulator.md R76, R77), as CoreComplete
performs them. -/

namespace Sys2Proof.Machine

/-- INIT: ACC[i] <- IV[i], LEN <- 0 (R76). -/
def execInit (s : State) : Host.Outcome State Fault Refusal := .next (s.loadIv Config.params)

/-- ABSORB(d): ACC[i] <- ACC[i] ^ XOR_r UnitComputation(IV, r, d)[i], LEN <- (LEN + 1) mod 2^32 (R77). -/
def execAbsorb (d : Byte) (s : State) : Host.Outcome State Fault Refusal := .next (s.mergeByte Config.params d)

end Sys2Proof.Machine
end

