-- ==== Sys2Proof/Machine/Control.lean ====
section
/-! DEFINITION. The two commands without datapath effect, NOP and CLRERR (43_control_and_host.md R92, R93). Each
meaning is the command's own pseudocode; whether a CMD write reaches it is R90, in Machine/Bus.lean (log 1). -/

namespace Sys2Proof.Machine

/-- NOP: "nothing; no state changes" (R92). -/
def execNop (s : State) : Host.Outcome State Fault Refusal := .next s

/-- CLRERR: ERR_ILLEGAL <- 0, ERR_OVERRUN <- 0 (R93). -/
def execClrerr (s : State) : Host.Outcome State Fault Refusal := .next s.clearErrors

end Sys2Proof.Machine
end

