-- ==== Sys2Proof/Machine/Finalizer.lean ====
section
/-! DEFINITION. The command of the finalizer, FINAL (42_finalizer.md R86), as CoreComplete performs it. -/

namespace Sys2Proof.Machine

/-- FINAL: DIGEST <- Finalize(ACC), then ACC <- IV, LEN <- 0 (R86). -/
def execFinal (s : State) : Host.Outcome State Fault Refusal := .next (s.produceDigest Config.params)

end Sys2Proof.Machine
end

