-- ==== Sys2Proof/Machine/Dispatch.lean ====
section
/-! DEFINITION. The meaning of each command, one arm per constructor of Instr (30_encoding.md R51). -/

namespace Sys2Proof.Machine

-- The command's own effect: R92, R76, R77, R86, R93.
def exec (i : Instr) (s : State) : Host.Outcome State Fault Refusal :=
  match i with
  | .nop => Sys2Proof.Machine.execNop s
  | .init => Sys2Proof.Machine.execInit s
  | .absorb d => Sys2Proof.Machine.execAbsorb d s
  | .final => Sys2Proof.Machine.execFinal s
  | .clrerr => Sys2Proof.Machine.execClrerr s

end Sys2Proof.Machine
end

