-- ==== Sys2Proof/Machine/Bus.lean ====
section
/-! DEFINITION. The steps of the two agents: HostWrite, HostRead, WAIT and Reset on the host's side, CoreComplete on
the core's (00_scope.md R15; 43_control_and_host.md R90, R91, R94; 70_reset_and_hazards.md R115), and how a command
word is placed where the next step runs it (log 10). -/

namespace Sys2Proof.Machine

/-- HostWrite(0x08, w) (R90): an overrun is checked first and an overrun word is not decoded (R107); an illegal word
only sets its flag; NOP and CLRERR are performed within the write; INIT, ABSORB and FINAL are accepted. -/
def writeCommand (w : Word32) (s : State) : Host.Outcome State Fault Refusal :=
  if s.busy then .next s.raiseCommandOverrun
  else match decode w with
    | .illegal _ => .next s.raiseIllegalCommand
    | .command i =>
      match pendingOf i with
      | some c => .next (s.acceptCommand c)
      | none => exec i s

/-- A write of a register: a command at CMD, ignored anywhere else (R41, R94), and "writes have no effect" while rst_n
is 0 (R115). -/
def writeRegister (r : Register) (v : Word32) (s : State) : Host.Outcome State Fault Refusal :=
  if s.phase = .held then .next s
  else match r with
    | .cmd => writeCommand v s
    | .id | .status | .len | .reserved _ | .digestW _ | .accSlice _ _ | .unmapped _ => .next s

/-- A read of a register: the value goes to the host (R94). -/
def readRegister (r : Register) (s : State) : Host.Outcome State Fault Refusal :=
  .next ((s.afterRead r).reply (s.readValue r))

/-- One poll of WAIT: t <- RD STATUS; if t[0] = 1 the host polls again (R59). The polled values are the loop's own t
and do not go to the replies (log 15). -/
def pollStatus (s : State) : Host.Outcome State Fault Refusal :=
  if (s.readValue .status).getLsbD 0 then
    .next { s.afterRead .status with program := .wait :: s.program }
  else .next (s.afterRead .status)

/-- One host operation, `s` being the state with the operation taken off the program. A host protocol violation is
refused whatever the state (R37, R104; log 6); before the first reset everything but a reset is refused (R119;
log 8). -/
def performHostOp (op : HostOp) (s : State) : Host.Outcome State Fault Refusal :=
  if !hostOpLegal op then .refused .hostProtocolViolation
  else match op with
    | .reset => .next (s.applyReset .running)
    | .holdReset => .next (s.applyReset .held)
    | .releaseReset =>
      if s.phase = .unknown then .refused .stateUnknownBeforeReset else .next { s with phase := .running }
    | .write _ off v =>
      if s.phase = .unknown then .refused .stateUnknownBeforeReset else writeRegister (registerAt off) v s
    | .read _ off =>
      if s.phase = .unknown then .refused .stateUnknownBeforeReset else readRegister (registerAt off) s
    | .wait =>
      if s.phase = .unknown then .refused .stateUnknownBeforeReset else pollStatus s

/-- The host's step: its next operation, or nothing where it has none (log 11). -/
def hostStep (s : State) : Host.Outcome State Fault Refusal :=
  match s.program with
  | [] => .next s
  | op :: rest => performHostOp op { s with program := rest }

/-- CoreComplete (R91): the pending command is performed in full, and then PENDING <- none. With nothing pending the
step is not enabled and `step` never takes it. -/
def coreComplete (s : State) : Host.Outcome State Fault Refusal :=
  match s.pending with
  | none => .next s
  | some c => andThen (exec c.toInstr s) fun t => .next t.retireCommand

/-- The step of the agent whose turn it is (R15). -/
def agentStep (s : State) : Host.Outcome State Fault Refusal :=
  match s.mover with
  | .core => coreComplete s.takeTurn
  | .host => hostStep s.takeTurn

/-- The state in which the next step runs a command word (log 10): a word that R90 accepts for CoreComplete stands in
PENDING with the core to move; any other word is the host's next write to CMD, the block being idle. -/
def State.withCommandWord (s : State) (w : Word32) : State :=
  match (decode w).toOption.bind pendingOf with
  | some c => { s with phase := .running, pending := some c, turns := .core :: s.turns }
  | none =>
    { s with phase := .running, pending := none, program := .write .w32 Register.cmd.offset w :: s.program }

end Sys2Proof.Machine
end

