-- ==== Sys2Proof/Machine/Step.lean ====
section
/-! DEFINITION. One step of the machine, and the placing of an instruction where the next step runs it. -/

namespace Sys2Proof.Machine

/-- One step: the agent whose turn it is moves (00_scope.md R15; log 2). -/
def step (s : State) : Host.Outcome State Fault Refusal := agentStep s

/-- The state in which the next step runs the instruction of bits w, the bits at and above nbits being 0 (log 10). -/
def State.withFetchWord (s : State) (nbits w : Nat) : State :=
  s.withCommandWord (BitVec.ofNat 32 (w % 2 ^ nbits))

end Sys2Proof.Machine
end

