-- ==== Sys2Proof/Machine/HostSequence.lean ====
section
/-! DEFINITION. The host program notation and its pseudo-instructions (30_encoding.md R59, R60), and the host sequence
for the document's AdvancedHash (43_control_and_host.md R95, R96). -/

namespace Sys2Proof.Machine

/-- `WR reg, v` (R59). -/
def writeReg (r : Register) (v : Word32) : HostOp := .write .w32 r.offset v

/-- `RD reg` (R59). -/
def readReg (r : Register) : HostOp := .read .w32 r.offset

/-- `CMD c` is `WR CMD, word(c)` (R59). -/
def cmd (i : Instr) : HostOp := writeReg .cmd (encode i)

/-- `CMD c; WAIT`. -/
def cmdWait (i : Instr) : List HostOp := [cmd i, .wait]

/-- `ABSORBB b0, b1, ...` (R60). -/
def absorbBytes (bytes : List Byte) : List HostOp := bytes.flatMap fun b => cmdWait (.absorb b)

/-- The bytes of the UTF-8 encoding of a text, in order (R60; log 14). -/
def utf8 (text : String) : List Byte :=
  text.toList.flatMap fun c => (String.utf8EncodeChar c).map UInt8.toBitVec

/-- `ABSORBS "s"` (R60). -/
def absorbText (text : String) : List HostOp := absorbBytes (utf8 text)

/-- `RD DIGEST_W0` ... `RD DIGEST_W7` (R60). -/
def readDigest : List HostOp := (List.finRange 8).map fun k => readReg (.digestW k)

/-- `HASH "input", "salt", "pepper"` (R60, R95): pepper, then input, then salt. -/
def hashSequence (input salt pepper : String) : List HostOp :=
  cmdWait .init ++ absorbText pepper ++ absorbText input ++ absorbText salt ++ cmdWait .final ++ readDigest

/-- The bytes that AdvancedHash absorbs: combinedInput = pepper ‖ input ‖ salt (R95). -/
def combinedInput (input salt pepper : String) : List Byte := utf8 pepper ++ utf8 input ++ utf8 salt

/-- AdvancedHash(input, salt, pepper) = Finalize(Accumulate(UTF8(pepper) ++ UTF8(input) ++ UTF8(salt))) (R96). -/
def advancedHash (p : Params) (input salt pepper : String) : Digest :=
  finalize (accumulate p (combinedInput input salt pepper))

end Sys2Proof.Machine
end

