-- ==== Sys2Proof/Safety.lean ====
section
/-! DEFINITION. What counts as a safe run: the host's domain, the invariant of the accumulator, and the ways the
block's registers may change, in the terms the statements use. -/

namespace Sys2Proof.Machine

/-- `k` steps, stopping at the first refusal (a name for Host.Core.run at this machine). -/
def run (k : Nat) (s : State) : Host.Outcome State Fault Refusal := Sys2Proof.core.run k s

/-- The high half of every ACC word is the IV's: ACC[i][127:64] = IV[i][127:64] (41_accumulator.md R82). -/
def HighHalvesOfIv (s : State) : Prop :=
  ∀ i : Fin 4, (s.acc.get i).extractLsb' 64 64 = (Config.iv.get i).extractLsb' 64 64

/-- The host keeps to duty (a) of R97, "makes only 32-bit accesses at multiples of 4", and reset has been applied since
power-up (70_reset_and_hazards.md R119). -/
def InDomain (s : State) : Prop :=
  s.phase ≠ .unknown ∧ ∀ op ∈ s.program, hostOpLegal op = true

/-- It is the host's turn and `op` is its next operation. -/
abbrev HostIssues (op : HostOp) (rest : List HostOp) (s : State) : Prop :=
  s.mover = .host ∧ s.program = op :: rest

/-- It is the core's turn, with `c` pending. -/
abbrev CoreCompletes (c : Pending) (s : State) : Prop :=
  s.mover = .core ∧ s.pending = some c

/-- The state in which the host's next operation is performed: it is off the program and its turn is used up. -/
def State.issued (s : State) (rest : List HostOp) : State := { s.takeTurn with program := rest }

/-- The commands' own effects, one after the other, stopping at the first fault or refusal. -/
def execAll : List Instr → State → Host.Outcome State Fault Refusal
  | [], s => .next s
  | i :: rest, s => andThen (exec i s) (execAll rest)

/-- The commands of one message: INIT, then ABSORB of each byte (R77). -/
def messageCommands (bytes : List Byte) : List Instr := .init :: bytes.map .absorb

/-- Two host operations that are the same but for the DATA byte, bits 15:8, of a word written to CMD
(30_encoding.md R50). -/
def OpsDifferInData (op op' : HostOp) : Prop :=
  op = op' ∨ ∃ w w' : Word32, op = .write .w32 Register.cmd.offset w ∧ op' = .write .w32 Register.cmd.offset w' ∧
    w &&& 0xFFFF00FF = w' &&& 0xFFFF00FF

/-- Two states that are the same but for data: the values of ACC, of DIGEST and of the replies, and the DATA bytes of
the command pending and of the commands still to write. -/
structure DifferInDataOnly (s s' : State) : Prop where
  len : s.len = s'.len
  errIllegal : s.errIllegal = s'.errIllegal
  errOverrun : s.errOverrun = s'.errOverrun
  pending : s.pending = s'.pending ∨ ∃ d d', s.pending = some (.absorb d) ∧ s'.pending = some (.absorb d')
  phase : s.phase = s'.phase
  program : List.Forall₂ OpsDifferInData s.program s'.program
  replies : s.replies.length = s'.replies.length
  turns : s.turns = s'.turns
  draws : s.draws = s'.draws

/-- The host applies reset in this step. -/
def HostResets (s : State) : Prop :=
  ∃ rest, HostIssues .reset rest s ∨ HostIssues .holdReset rest s

/-- The host writes word `w` to CMD in this step. -/
def HostWritesCmd (w : Word32) (s : State) : Prop :=
  ∃ rest, HostIssues (.write .w32 Register.cmd.offset w) rest s

end Sys2Proof.Machine
end

