-- ==== Sys2Proof/Certificates/Slice0/Obligations.lean ====
section
/-! DEFINITION. The statements for the provers, each from the spec's numbered rules. `HostIssues op rest s` says that
the host moves in this step and its next operation is `op`; `s.issued rest` is the state with that operation taken off
the program and the turn used up, so `step s = .next (s.issued rest)` says that the operation changes nothing of the
block. `CoreCompletes c s` says that the core moves in this step with `c` pending. -/

open Sys2Proof Sys2Proof.Machine

/-! ### Encoding (30_encoding.md) -/

/-- Decode and encode agree for every command, with DATA of ABSORB at every value (R51, R57, R58, R100). -/
def Obligations.DecodeEncodeRoundTrip : Prop :=
  ∀ i : Instr, decode (encode i) = .command i ∧ decodeBytes (encodeBytes i) = .command i ∧
    decodeTableWord 32 (encode i).toNat = some i

/-- R51: which words select which command, and R57: every other word is ILLEGAL. -/
def Obligations.OpcodeMapSelectsCommands : Prop :=
  ∀ w : Word32,
    (decode w = .command .nop ↔ w &&& 0xFFFF00FF = 0x00000000) ∧
    (decode w = .command .init ↔ w &&& 0xFFFF00FF = 0x00000001) ∧
    (∀ d, decode w = .command (.absorb d) ↔ w &&& 0xFFFF00FF = 0x00000002 ∧ d = w.extractLsb' 8 8) ∧
    (decode w = .command .final ↔ w &&& 0xFFFF00FF = 0x00000003) ∧
    (decode w = .command .clrerr ↔ w &&& 0xFFFF00FF = 0x00000004) ∧
    ((∃ why, decode w = .illegal why) ↔ w.extractLsb' 16 16 ≠ 0 ∨ 5 ≤ (w.extractLsb' 0 8).toNat)

/-- R52: DATA is ABSORB's operand and is ignored by the other commands. -/
def Obligations.DataFieldIsOnlyAbsorbsOperand : Prop :=
  ∀ (w : Word32) (d : Byte),
    let w' : Word32 := (w &&& (0xFFFF00FF : Word32)) ||| (d.setWidth 32 <<< (8 : Nat))
    (∀ i, decode w = .command i → (∀ e, i ≠ .absorb e) → decode w' = .command i) ∧
    (∀ e, decode w = .command (.absorb e) → decode w' = .command (.absorb d)) ∧
    (∀ why, decode w = .illegal why → decode w' = .illegal why)

/-- A few command words written out bit by bit from R50 and R51 (OP in bits 7:0, DATA in bits 15:8, RSVD zero). -/
def Obligations.WordsWrittenOutDecode : Prop :=
  decode 0b0000000000000000_11111111_00000000 = .command .nop ∧
  decode 0b0000000000000000_01000010_00000001 = .command .init ∧
  decode 0b0000000000000000_01100001_00000010 = .command (.absorb 0x61) ∧
  decode 0b0000000000000000_00000000_00000011 = .command .final ∧
  decode 0b0000000000000000_00000000_00000100 = .command .clrerr ∧
  decode 0b0000000000000000_00000000_00000101 = .illegal .unassignedOpcode ∧
  decode 0b0000000000000001_00000000_00000010 = .illegal .reservedBitsSet

/-- R58: the words of the assembler's lines, and its errors. -/
def Obligations.AssemblerLines : Prop :=
  assemble .nop = some 0x00000000 ∧ assemble .init = some 0x00000001 ∧
  (∀ d, d < 256 → assemble (.absorb d) = some (BitVec.ofNat 32 (0x00000002 + 256 * d))) ∧
  assemble .final = some 0x00000003 ∧ assemble .clrerr = some 0x00000004 ∧
  (∀ w, w < 2 ^ 32 → assemble (.word w) = some (BitVec.ofNat 32 w)) ∧
  (∀ d, 256 ≤ d → assemble (.absorb d) = none)

/-! ### Datapath (40_nonlinear_transform.md, 41_accumulator.md, 42_finalizer.md) -/

/-- R64, R65: the two rotations by their formulas and bit by bit, with the rules' examples. -/
def Obligations.RotationsMoveBits : Prop :=
  rotl 0x80000000000000000000000000000000 1 = 0x1 ∧ rotl 0x1 39 = 0x8000000000 ∧
  rotr 0x1 23 = 0x00000200000000000000000000000000 ∧
  ∀ (v : U128), rotl v 0 = v ∧ rotr v 0 = v ∧
    (∀ n, 1 ≤ n → n ≤ 127 →
      rotl v n = (v <<< n) ||| (v >>> (128 - n)) ∧ rotr v n = (v >>> n) ||| (v <<< (128 - n)) ∧
      rotr v n = rotl v (128 - n)) ∧
    ∀ n, n ≤ 127 → ∀ k, k < 128 →
      (rotl v n).getLsbD k = v.getLsbD ((k + 128 - n) % 128) ∧ (rotr v n).getLsbD k = v.getLsbD ((k + n) % 128)

/-- R66: the product wraps modulo 2^128 first, then the integer remainder by 2^64 - 1; PRIME = 0 gives 0. -/
def Obligations.NltWrapsThenReduces : Prop :=
  (∀ prime v : U128,
    (nlt prime v).toNat = ((v ^^^ rotr v 23).toNat * prime.toNat % 2 ^ 128) % 0xFFFFFFFFFFFFFFFF) ∧
  (∀ v, nlt 0 v = 0) ∧ nlt 1 1 = 0x20000000001

/-- R67 (a) to (e): the properties of NLT, for every PRIME. -/
def Obligations.NltProperties : Prop :=
  ∀ prime v : U128,
    ((nlt prime v).toNat ≤ 2 ^ 64 - 2 ∧ (nlt prime v).extractLsb' 64 64 = 0) ∧
    nlt prime (~~~v) = nlt prime v ∧
    ((v ^^^ rotr v 23 = 0 ↔ v = 0 ∨ v = BitVec.allOnes 128) ∧ nlt prime 0 = 0 ∧ nlt prime (BitVec.allOnes 128) = 0) ∧
    (v.toNat % (2 ^ 64 - 1) =
      ((v.extractLsb' 64 64).toNat + (v.extractLsb' 0 64).toNat) % (2 ^ 64 - 1)) ∧
    (∀ v' : U128,
      ((v ^^^ rotr v 23) * prime).toNat % (2 ^ 64 - 1) = ((v' ^^^ rotr v' 23) * prime).toNat % (2 ^ 64 - 1) →
      nlt prime v = nlt prime v') ∧
    nlt 1 1 = 0x20000000001 ∧ nlt 1 0x10000000000000000 = 0x20000000001

/-- R68, R69: the four words of a StateMixer result; step 3 XORs with the new word 0; with the rules' example. -/
def Obligations.StateMixerReadsCurrentNeighbour : Prop :=
  stateMixer 1 ⟨#v[0, 0, 0, 0]⟩ 0 0 =
    ⟨#v[0x0000020000000001, 0x0002000000000100, 0x0200000000010000, 0x0000020001000003]⟩ ∧
  ∀ (prime : U128) (s : HashState) (m : U128) (r : Fin 256),
    let o := stateMixer prime s m r
    o.get 0 = nlt prime (rotl ((s.get 0 ^^^ m) + prime) (r.val % 16)) ^^^ s.get 1 ∧
    o.get 1 = nlt prime (rotl ((s.get 1 ^^^ m) + prime) (r.val % 16 + 8)) ^^^ s.get 2 ∧
    o.get 2 = nlt prime (rotl ((s.get 2 ^^^ m) + prime) (r.val % 16 + 16)) ^^^ s.get 3 ∧
    o.get 3 = nlt prime (rotl ((s.get 3 ^^^ m) + prime) (r.val % 16 + 24)) ^^^ o.get 0

/-- R70: the high halves of a StateMixer result are those of the neighbours, whatever m and r are. -/
def Obligations.StateMixerCopiesHighHalves : Prop :=
  ∀ (prime : U128) (s : HashState) (m : U128) (r : Fin 256),
    let o := stateMixer prime s m r
    (o.get 0).extractLsb' 64 64 = (s.get 1).extractLsb' 64 64 ∧
    (o.get 1).extractLsb' 64 64 = (s.get 2).extractLsb' 64 64 ∧
    (o.get 2).extractLsb' 64 64 = (s.get 3).extractLsb' 64 64 ∧
    (o.get 3).extractLsb' 64 64 = (s.get 1).extractLsb' 64 64

/-- R71, R72, R73: the salt changes only bits 7:0 of r + PRIME, by the low byte of base word r mod 4; the mixed byte
adds the zero-extended byte; a unit is one StateMixer call on its base. -/
def Obligations.UnitInputs : Prop :=
  ∀ (prime : U128) (base : HashState) (r : Fin 256) (b : Byte),
    (dynamicSalt prime base r).extractLsb' 8 120 = (BitVec.ofNat 128 r.val + prime).extractLsb' 8 120 ∧
    (dynamicSalt prime base r).extractLsb' 0 8 =
      (BitVec.ofNat 128 r.val + prime).extractLsb' 0 8 ^^^ (base.get (Fin.ofNat 4 r.val)).extractLsb' 0 8 ∧
    (mixedByte prime base r b).toNat = (b.toNat + (dynamicSalt prime base r).toNat) % 2 ^ 128 ∧
    unitComputation prime base r b = stateMixer prime base (mixedByte prime base r b) r

/-- R74, R84: C(b), word by word, is the XOR of the 256 UnitResults with the IV as base. -/
def Obligations.ContributionIsXorOf256Units : Prop :=
  ∀ (p : Params) (b : Byte),
    (∀ i : Fin 4, (contribution p b).get i =
      ((List.finRange 256).map fun r => (unitComputation p.prime p.iv r b).get i).foldr (· ^^^ ·) 0) ∧
    (unitResults p allRounds b).length = 256

/-- R80 (and R77's "any order"): whatever the order of the 256 units, the merged result is C(b), and it is what ABSORB
merges into ACC. -/
def Obligations.UnitOrderIsNotObservable : Prop :=
  ∀ (order : List (Fin roundCount)), order.Perm (List.finRange 256) →
    (∀ (p : Params) (b : Byte), xorAll (unitResults p order b) = contribution p b) ∧
    ∀ (d : Byte) (s : State), exec (.absorb d) s =
      .next { s with acc := s.acc.xor (xorAll (unitResults Config.params order d)), len := s.len + 1 }

/-- R82: the high halves of a UnitResult with the IV as base, and C(b)[i][127:64] = 0. -/
def Obligations.ContributionHasNoHighHalf : Prop :=
  ∀ (p : Params) (b : Byte),
    (∀ r : Fin 256,
      let u := unitComputation p.prime p.iv r b
      (u.get 0).extractLsb' 64 64 = (p.iv.get 1).extractLsb' 64 64 ∧
      (u.get 1).extractLsb' 64 64 = (p.iv.get 2).extractLsb' 64 64 ∧
      (u.get 2).extractLsb' 64 64 = (p.iv.get 3).extractLsb' 64 64 ∧
      (u.get 3).extractLsb' 64 64 = (p.iv.get 1).extractLsb' 64 64) ∧
    ∀ i : Fin 4, ((contribution p b).get i).extractLsb' 64 64 = 0

/-- R79: Accumulate depends only on which byte values occur an odd number of times; so permutations agree, and a byte
value absorbed an even number of times contributes nothing. -/
def Obligations.AccumulateSeesOnlyParity : Prop :=
  ∀ (p : Params) (bytes : List Byte),
    (accumulate p bytes = p.iv.xor (xorAll
      ((((List.finRange 256).map fun n => BitVec.ofNat 8 n.val).filter fun b => bytes.count b % 2 = 1).map
        (contribution p)))) ∧
    (∀ bytes', bytes.Perm bytes' → accumulate p bytes = accumulate p bytes') ∧
    ∀ b, accumulate p (b :: b :: bytes) = accumulate p bytes

/-- R85: digest byte 8i + k is byte k of word i, and bits 127:64 of every word are dropped. -/
def Obligations.FinalizeTakesLowHalves : Prop :=
  (∀ (s : HashState) (i : Fin 4) (k : Fin 8),
    (finalize s)[8 * i.val + k.val]'(by show _ < 32; omega) = (s.get i).extractLsb' (8 * k.val) 8) ∧
  ∀ s s' : HashState, (∀ i : Fin 4, (s.get i).extractLsb' 0 64 = (s'.get i).extractLsb' 0 64) →
    finalize s = finalize s'

/-! ### The commands: encoding, acceptance, completion, effect -/

/-- R76: INIT, its encoding, its effect, its acceptance by a CMD write (dropped as an overrun while BUSY = 1) and
its completion. -/
def Obligations.InitLoadsIv : Prop :=
  (∀ w : Word32, w &&& 0xFFFF00FF = 0x00000001 → decode w = .command .init) ∧
  (∀ s : State, exec .init s = .next { s with acc := Config.iv, len := 0 }) ∧
  (∀ (s : State) (w : Word32) (rest : List HostOp), w &&& 0xFFFF00FF = 0x00000001 →
    HostIssues (.write .w32 0x08 w) rest s → s.phase = .running → s.busy = false →
    step s = .next { s.issued rest with pending := some .init }) ∧
  (∀ (s : State) (w : Word32) (rest : List HostOp), w &&& 0xFFFF00FF = 0x00000001 →
    HostIssues (.write .w32 0x08 w) rest s → s.phase = .running → s.busy = true →
    step s = .next { s.issued rest with errOverrun := true }) ∧
  (∀ s : State, CoreCompletes .init s →
    step s = .next { s.takeTurn with acc := Config.iv, len := 0, pending := none })

/-- R77: ABSORB d, its encoding, its effect, its acceptance by a CMD write (dropped as an overrun while BUSY = 1) and
its completion. -/
def Obligations.AbsorbMergesAllUnits : Prop :=
  (∀ w : Word32, w &&& 0xFFFF00FF = 0x00000002 → decode w = .command (.absorb (w.extractLsb' 8 8))) ∧
  (∀ (d : Byte) (s : State), ∃ t, exec (.absorb d) s = .next t ∧
    (∀ i : Fin 4, t.acc.get i = s.acc.get i ^^^
      ((List.finRange 256).map fun r => (unitComputation Config.prime Config.iv r d).get i).foldr (· ^^^ ·) 0) ∧
    t.len.toNat = (s.len.toNat + 1) % 2 ^ 32 ∧
    t = { s with acc := t.acc, len := t.len } ∧
    t.acc = s.acc.xor (contribution Config.params d)) ∧
  (∀ (s : State) (w : Word32) (rest : List HostOp), w &&& 0xFFFF00FF = 0x00000002 →
    HostIssues (.write .w32 0x08 w) rest s → s.phase = .running → s.busy = false →
    step s = .next { s.issued rest with pending := some (.absorb (w.extractLsb' 8 8)) }) ∧
  (∀ (s : State) (w : Word32) (rest : List HostOp), w &&& 0xFFFF00FF = 0x00000002 →
    HostIssues (.write .w32 0x08 w) rest s → s.phase = .running → s.busy = true →
    step s = .next { s.issued rest with errOverrun := true }) ∧
  (∀ (d : Byte) (s : State), CoreCompletes (.absorb d) s →
    step s = .next { s.takeTurn with
      acc := s.acc.xor (contribution Config.params d), len := s.len + 1, pending := none })

/-- R86: FINAL, its encoding, its effect, its acceptance by a CMD write (dropped as an overrun while BUSY = 1) and
its completion. -/
def Obligations.FinalProducesDigest : Prop :=
  (∀ w : Word32, w &&& 0xFFFF00FF = 0x00000003 → decode w = .command .final) ∧
  (∀ s : State, exec .final s = .next { s with digest := finalize s.acc, acc := Config.iv, len := 0 }) ∧
  (∀ (s : State) (w : Word32) (rest : List HostOp), w &&& 0xFFFF00FF = 0x00000003 →
    HostIssues (.write .w32 0x08 w) rest s → s.phase = .running → s.busy = false →
    step s = .next { s.issued rest with pending := some .final }) ∧
  (∀ (s : State) (w : Word32) (rest : List HostOp), w &&& 0xFFFF00FF = 0x00000003 →
    HostIssues (.write .w32 0x08 w) rest s → s.phase = .running → s.busy = true →
    step s = .next { s.issued rest with errOverrun := true }) ∧
  (∀ s : State, CoreCompletes .final s →
    step s = .next { s.takeTurn with digest := finalize s.acc, acc := Config.iv, len := 0, pending := none })

/-- R92: NOP, its encoding and its effect, none, also through a CMD write. -/
def Obligations.NopChangesNothing : Prop :=
  (∀ w : Word32, w &&& 0xFFFF00FF = 0x00000000 → decode w = .command .nop) ∧
  (∀ s : State, exec .nop s = .next s) ∧
  (∀ (s : State) (w : Word32) (rest : List HostOp), w &&& 0xFFFF00FF = 0x00000000 →
    HostIssues (.write .w32 0x08 w) rest s → s.phase = .running → s.busy = false →
    step s = .next (s.issued rest)) ∧
  (∀ (s : State) (w : Word32) (rest : List HostOp), w &&& 0xFFFF00FF = 0x00000000 →
    HostIssues (.write .w32 0x08 w) rest s → s.phase = .running → s.busy = true →
    step s = .next { s.issued rest with errOverrun := true })

/-- R93: CLRERR, its encoding and its effect, also through a CMD write; while BUSY = 1 it is dropped and ERR_OVERRUN is
set, not cleared. -/
def Obligations.ClrerrClearsBothFlags : Prop :=
  (∀ w : Word32, w &&& 0xFFFF00FF = 0x00000004 → decode w = .command .clrerr) ∧
  (∀ s : State, exec .clrerr s = .next { s with errIllegal := false, errOverrun := false }) ∧
  (∀ (s : State) (w : Word32) (rest : List HostOp), w &&& 0xFFFF00FF = 0x00000004 →
    HostIssues (.write .w32 0x08 w) rest s → s.phase = .running → s.busy = false →
    step s = .next { s.issued rest with errIllegal := false, errOverrun := false }) ∧
  (∀ (s : State) (w : Word32) (rest : List HostOp), w &&& 0xFFFF00FF = 0x00000004 →
    HostIssues (.write .w32 0x08 w) rest s → s.phase = .running → s.busy = true →
    step s = .next { s.issued rest with errOverrun := true })

/-- What each command's own effect leaves unchanged: no command touches PENDING, rst_n or the model's own fields; only
INIT, ABSORB and FINAL write ACC and LEN; only FINAL writes DIGEST; only CLRERR writes the error flags. -/
def Obligations.CommandFrames : Prop :=
  ∀ (i : Instr) (s t : State), exec i s = .next t →
    t.pending = s.pending ∧ t.phase = s.phase ∧ t.program = s.program ∧ t.replies = s.replies ∧
    t.turns = s.turns ∧ t.draws = s.draws ∧
    (i = .nop ∨ i = .clrerr → t.acc = s.acc ∧ t.len = s.len) ∧
    (i ≠ .final → t.digest = s.digest) ∧
    (i ≠ .clrerr → t.errIllegal = s.errIllegal ∧ t.errOverrun = s.errOverrun)

/-- R79(b) on the machine: absorbing one byte twice changes only LEN. -/
def Obligations.AbsorbTwiceCancels : Prop :=
  ∀ (d : Byte) (s : State),
    execAll [.absorb d, .absorb d] s = .next { s with len := s.len + 2 }

/-- R75 with R76, R77, R78: after INIT and the ABSORBs of a message, ACC = Accumulate(B) and LEN is the number of bytes
modulo 2^32; FINAL then gives its digest. -/
def Obligations.MessageAccumulates : Prop :=
  ∀ (bytes : List Byte) (s : State),
    execAll (messageCommands bytes) s =
      .next { s with acc := accumulate Config.params bytes, len := BitVec.ofNat 32 bytes.length } ∧
    execAll (messageCommands bytes ++ [.final]) s =
      .next { s with digest := finalize (accumulate Config.params bytes), acc := Config.iv, len := 0 }

/-- R89: a message whose every byte value occurs an even number of times, the empty message among them, has the digest
Finalize(IV). -/
def Obligations.EvenMessagesHashLikeTheEmptyOne : Prop :=
  ∀ (bytes : List Byte) (s : State), (∀ b, bytes.count b % 2 = 0) →
    execAll (messageCommands bytes ++ [.final]) s =
      .next { s with digest := finalize Config.iv, acc := Config.iv, len := 0 }

/-- R87: the digest registers after a FINAL are slices of ACC before it. -/
def Obligations.DigestWordsAreAccSlices : Prop :=
  ∀ s : State, ∃ t, exec .final s = .next t ∧ ∀ i : Fin 4,
    t.registerValue (.digestW ⟨2 * i.val, by omega⟩) = (s.acc.get i).extractLsb' 0 32 ∧
    t.registerValue (.digestW ⟨2 * i.val + 1, by omega⟩) = (s.acc.get i).extractLsb' 32 32 ∧
    t.registerValue (.digestW ⟨2 * i.val, by omega⟩) = s.registerValue (.accSlice i 0) ∧
    t.registerValue (.digestW ⟨2 * i.val + 1, by omega⟩) = s.registerValue (.accSlice i 1)

/-- "No computed value depends on LEN" (R25): from states that differ only in LEN every command gives states that differ
at most in LEN. -/
def Obligations.NoCommandDependsOnLen : Prop :=
  ∀ (i : Instr) (s : State) (n : Word32), ∃ t t', exec i s = .next t ∧ exec i { s with len := n } = .next t' ∧
    { t' with len := t.len } = t

/-! ### The protocol (43_control_and_host.md, 60_exceptions.md) -/

/-- R102, R53, R54: an illegal word written while BUSY = 0 sets ERR_ILLEGAL and changes nothing else. -/
def Obligations.IllegalCommandSetsOnlyItsFlag : Prop :=
  ∀ (s : State) (w : Word32) (rest : List HostOp),
    w.extractLsb' 16 16 ≠ 0 ∨ (w.extractLsb' 16 16 = 0 ∧ 0x05 ≤ (w.extractLsb' 0 8).toNat) →
    HostIssues (.write .w32 0x08 w) rest s → s.phase = .running → s.busy = false →
    step s = .next { s.issued rest with errIllegal := true }

/-- R103: a CMD write while BUSY = 1, whatever the word, sets ERR_OVERRUN and changes nothing else. -/
def Obligations.OverrunDropsTheWord : Prop :=
  ∀ (s : State) (w : Word32) (rest : List HostOp),
    HostIssues (.write .w32 0x08 w) rest s → s.phase = .running → s.busy = true →
    step s = .next { s.issued rest with errOverrun := true }

/-- R91: CoreComplete is enabled exactly when PENDING is not none (and the block is not in reset, R115), whatever the
turns; it performs the pending command in full, and then PENDING is none. That it is not enabled before the first reset
after power-up either, where R119 leaves the state unknown, is this model's choice (log 8). -/
def Obligations.CoreCompletePerformsPending : Prop :=
  (∀ s : State, (∃ turns, { s with turns := turns }.mover = .core) ↔ s.phase = .running ∧ s.pending ≠ none) ∧
  (∀ (c : Pending) (s : State), CoreCompletes c s → ∃ t, step s = .next t ∧
    exec c.toInstr s.takeTurn = .next { t with pending := s.pending } ∧ t.pending = none)

/-- A step runs the decoded command: a word of the table that `withFetchWord` placed is run by the very next step, which
is `exec` of the command this decoder reads, the block being idle and out of reset. The placing is this model's choice
and no rule's (log 10): INIT, ABSORB and FINAL are placed as PENDING with the core to move, any other word as the
host's next CMD write, and rst_n is released. What the step then does with the placed command is R91's CoreComplete, or
R90's write for NOP and CLRERR. -/
def Obligations.StepRunsTheDecodedCommand : Prop :=
  ∀ (s : State) (nbits w : Nat) (i : Instr), decodeTableWord nbits w = some i → i.wf = true →
    step (s.withFetchWord nbits w) = exec i { s with phase := .running, pending := none }

/-- R90: a command word that the host writes to CMD while BUSY = 0 is performed within the write where it is NOP or
CLRERR, and otherwise becomes pending; whatever moves later, the core's step then performs exactly it. -/
def Obligations.CmdWriteThenCompletionRunsTheCommand : Prop :=
  ∀ (s : State) (w : Word32) (rest : List HostOp) (i : Instr),
    HostIssues (.write .w32 0x08 w) rest s → s.phase = .running → s.busy = false → decode w = .command i →
    (pendingOf i = none → step s = exec i (s.issued rest)) ∧
    (∀ c, pendingOf i = some c → step s = .next { s.issued rest with pending := some c } ∧
      ∀ u : State, CoreCompletes c u →
        step u = andThen (exec i u.takeTurn) fun t => .next { t with pending := none })

/-- R45 and 93_implementation_defined.md: when a CMD write races the completion of an earlier command both outcomes are
admitted, each by an order of the agents. -/
def Obligations.RacingWriteHasBothOutcomes : Prop :=
  ∀ (s : State) (d e : Byte) (rest : List HostOp), s.phase = .running → s.pending = none →
    s.program = cmd (.absorb d) :: cmd (.absorb e) :: rest →
    (∃ turns, run 3 { s with turns := turns } = .next
      { s with
        turns := [], program := rest, acc := s.acc.xor (contribution Config.params d), len := s.len + 1,
        errOverrun := true }) ∧
    (∃ turns, run 4 { s with turns := turns } = .next
      { s with
        turns := [], program := rest,
        acc := (s.acc.xor (contribution Config.params d)).xor (contribution Config.params e), len := s.len + 2 })

/-- WAIT polls STATUS (R59): while BUSY = 1 the host polls again, and at BUSY = 0 it goes on; nothing else changes.
R59's loop reads STATUS into its own temporary t. That this value does not go to the replies, where the value of every
other RD goes, is this model's choice (log 15), and so is one poll being one step. -/
def Obligations.WaitPollsUntilIdle : Prop :=
  ∀ (s : State) (rest : List HostOp), HostIssues .wait rest s → s.phase = .running →
    (s.busy = true → step s = .next s.takeTurn) ∧ (s.busy = false → step s = .next (s.issued rest))

/-- R125, R91: a pending command completes after finitely many steps, of a host that keeps to the bus's accesses (or a
reset abandons it): at most one step more than the turns that are fixed. That the core moves when the turns are used
up is this model's choice (log 2). -/
def Obligations.PendingCommandCompletes : Prop :=
  ∀ s : State, InDomain s → s.phase = .running → s.pending ≠ none →
    ∃ k, k ≤ s.turns.length + 1 ∧ ∃ t, run k s = .next t ∧ t.pending = none

/-- R96: the host sequence for AdvancedHash (R95), whatever the order in which the agents move: the digest is
Finalize(Accumulate(UTF8(pepper) ++ UTF8(input) ++ UTF8(salt))), no error flag changes, and LEN before FINAL is the
number of bytes modulo 2^32. Three clauses rest on the model's own choices: that the run ends, on the core moving when
the turns are used up (log 2; R91 and R125 say only that each command completes after finitely many steps); that the
replies are the eight digest words alone, on the polls of WAIT being no replies (log 15); and the bytes of a text, on
the Lean library's UTF-8 (log 14). -/
def Obligations.HashSequenceComputesAdvancedHash : Prop :=
  ∀ (s : State) (input salt pepper : String), s.phase = .running → s.pending = none →
    s.program = hashSequence input salt pepper →
    (∃ k u, run k s = .next u ∧ u.program = cmdWait .final ++ readDigest ∧ u.pending = none ∧
      u.len = BitVec.ofNat 32 (combinedInput input salt pepper).length) ∧
    ∃ k t, run k s = .next t ∧ t.program = [] ∧ t.pending = none ∧
      t.digest = finalize (accumulate Config.params (utf8 pepper ++ utf8 input ++ utf8 salt)) ∧
      t.replies = s.replies ++ (List.finRange 8).map (fun k => t.registerValue (.digestW k)) ∧
      t.acc = Config.iv ∧ t.len = 0 ∧ t.errOverrun = s.errOverrun ∧ t.errIllegal = s.errIllegal

/-! ### The register window (20_memory.md) -/

/-- R35: the register map's offsets, one register at each multiple of 4. -/
def Obligations.RegisterMapOffsets : Prop :=
  registerAt 0x00 = .id ∧ registerAt 0x04 = .status ∧ registerAt 0x08 = .cmd ∧ registerAt 0x0C = .len ∧
  (∀ k : Fin 4, registerAt (BitVec.ofNat 8 (0x10 + 4 * k.val)) = .reserved k) ∧
  (∀ k : Fin 8, registerAt (BitVec.ofNat 8 (0x20 + 4 * k.val)) = .digestW k) ∧
  (∀ i k : Fin 4, registerAt (BitVec.ofNat 8 (0x40 + 16 * i.val + 4 * k.val)) = .accSlice i k) ∧
  (∀ k : Fin 32, registerAt (BitVec.ofNat 8 (0x80 + 4 * k.val)) = .unmapped k) ∧
  (∀ r : Register, registerAt r.offset = r ∧ r.offset.toNat % 4 = 0) ∧
  (∀ off : Byte, off.toNat % 4 = 0 → (registerAt off).offset = off)

/-- R94, R44, R41: what a 32-bit read returns at each offset; an unspecified value is the next free value, drawn for
this read; nothing else changes but the count of the free values drawn. A write at any offset but 0x08 changes
nothing. -/
def Obligations.HostReadReturns : Prop :=
  (∀ (s : State) (rest : List HostOp) (off : Byte) (v : Word32), HostIssues (.write .w32 off v) rest s →
    s.phase = .running → off.toNat % 4 = 0 → off ≠ 0x08 → step s = .next (s.issued rest)) ∧
  ∀ (s : State) (rest : List HostOp) (off : Byte), HostIssues (.read .w32 off) rest s → s.phase = .running →
    let exact (v : Word32) : Prop := step s = .next { s.issued rest with replies := s.replies ++ [v] }
    let result (v : Word32) : Prop :=
      (s.busy = false → exact v) ∧
      (s.busy = true → step s =
        .next { s.issued rest with replies := s.replies ++ [Config.freeRead s.draws], draws := s.draws + 1 })
    (off = 0x00 → exact 0x4D504843) ∧
    (off = 0x04 → exact ((0 : BitVec 29) ++ BitVec.ofBool s.errOverrun ++ BitVec.ofBool s.errIllegal ++
      BitVec.ofBool s.pending.isSome)) ∧
    (off = 0x08 → exact 0) ∧
    (off = 0x0C → result s.len) ∧
    (∀ k : Fin 4, off = BitVec.ofNat 8 (0x10 + 4 * k.val) → exact 0) ∧
    (∀ k : Fin 8, off = BitVec.ofNat 8 (0x20 + 4 * k.val) → result
      ((s.digest[4 * k.val]'(by show _ < 32; omega)).setWidth 32 |||
        (s.digest[4 * k.val + 1]'(by show _ < 32; omega)).setWidth 32 <<< 8 |||
        (s.digest[4 * k.val + 2]'(by show _ < 32; omega)).setWidth 32 <<< 16 |||
        (s.digest[4 * k.val + 3]'(by show _ < 32; omega)).setWidth 32 <<< 24)) ∧
    (∀ i k : Fin 4, off = BitVec.ofNat 8 (0x40 + 16 * i.val + 4 * k.val) → result
      ((s.acc.get i).extractLsb' (32 * k.val) 32)) ∧
    (∀ k : Fin 32, off = BitVec.ofNat 8 (0x80 + 4 * k.val) → exact 0)

/-- R42: a read changes nothing of the block, nor does a write anywhere but at CMD; and two reads of one register in a
row return the same value, except a read of a result while BUSY = 1. -/
def Obligations.OnlyCmdWritesHaveSideEffects : Prop :=
  (∀ (s t : State) (rest : List HostOp) (op : HostOp), HostIssues op rest s → step s = .next t →
    (∃ width off, op = .read width off) ∨ (∃ width off v, op = .write width off v ∧ off ≠ 0x08) →
    t.acc = s.acc ∧ t.digest = s.digest ∧ t.len = s.len ∧ t.errIllegal = s.errIllegal ∧
    t.errOverrun = s.errOverrun ∧ t.pending = s.pending ∧ t.phase = s.phase) ∧
  (∀ (s : State) (rest : List HostOp) (r : Register), s.phase = .running → s.turns.head? = some .host →
    s.turns.tail.head? = some .host → s.program = readReg r :: readReg r :: rest →
    s.busy = false ∨ r.isResult = false →
    ∃ t v, run 2 s = .next t ∧ t.replies = s.replies ++ [v, v])

/-- An access of another width or at an offset that is not a multiple of 4 is refused (R37, R104). That it is refused in
every state, also while rst_n is 0, where R115 says that the block ignores every access, and before the first reset,
where log 8 gives the other operations another refusal, is this model's choice (log 6). -/
def Obligations.ProtocolViolationsAreRefused : Prop :=
  ∀ (s : State) (rest : List HostOp) (width : AccessWidth) (off : Byte) (v : Word32),
    width ≠ .w32 ∨ off.toNat % 4 ≠ 0 →
    HostIssues (.read width off) rest s ∨ HostIssues (.write width off v) rest s →
    step s = .refused .hostProtocolViolation

/-- R38, R39, R40: the bytes of the window are little-endian: the digest's bytes in order at 0x20 to 0x3F, and the 16
bytes of ACC[i], least significant first, from 0x40 + 16i. -/
def Obligations.WindowBytesAreLittleEndian : Prop :=
  ∀ s : State,
    (∀ (k : Fin 8) (j : Fin 4), (s.registerValue (.digestW k)).extractLsb' (8 * j.val) 8 =
      s.digest[4 * k.val + j.val]'(by show _ < 32; omega)) ∧
    (∀ n : Fin 32, s.windowByte (BitVec.ofNat 8 (0x20 + n.val)) = s.digest[n.val]) ∧
    (∀ i k : Fin 4, s.registerValue (.accSlice i k) = (s.acc.get i).extractLsb' (32 * k.val) 32) ∧
    (∀ (i : Fin 4) (j : Fin 16), s.windowByte (BitVec.ofNat 8 (0x40 + 16 * i.val + j.val)) =
      (s.acc.get i).extractLsb' (8 * j.val) 8)

/-- R26: the fields of STATUS, bit by bit. -/
def Obligations.StatusFields : Prop :=
  ∀ s : State,
    (s.registerValue .status).getLsbD 0 = s.pending.isSome ∧
    (s.registerValue .status).getLsbD 1 = s.errIllegal ∧
    (s.registerValue .status).getLsbD 2 = s.errOverrun ∧
    ∀ k, 3 ≤ k → (s.registerValue .status).getLsbD k = false

/-- The system address of an offset selects that offset again, whatever BASE_ADDR is; addresses below and above the
window select none (R34, R10). This rests on the model's choice that BASE_ADDR and a system address are natural numbers
that never wrap (log 5): R34 and R10 give them no width, and on a bus of finite width the statement says nothing of a
window that reaches past the top. -/
def Obligations.SystemAddressSelectsItsOffset : Prop :=
  (∀ off : Byte, windowOffset (systemAddress off) = some off) ∧
  (∀ addr, addr < Config.baseAddr ∨ Config.baseAddr + 256 ≤ addr → windowOffset addr = none) ∧
  ∀ addr off, windowOffset addr = some off → systemAddress off = addr

/-! ### Reset and the reset input (70_reset_and_hazards.md) -/

/-- R115 and R18: the values that reset leaves, read from the state after reset. -/
def Obligations.ResetStateValues : Prop :=
  State.reset.acc = Config.iv ∧ (∀ k : Fin 32, State.reset.digest[k] = 0) ∧ State.reset.len = 0 ∧
  State.reset.busy = false ∧ State.reset.errIllegal = false ∧ State.reset.errOverrun = false ∧
  State.reset.pending = none

/-- R35's reset column: what the registers read after reset. -/
def Obligations.ResetRegisterValues : Prop :=
  State.reset.registerValue .id = 0x4D504843 ∧ State.reset.registerValue .status = 0x00000000 ∧
  State.reset.registerValue .len = 0x00000000 ∧
  (∀ k : Fin 8, State.reset.registerValue (.digestW k) = 0x00000000) ∧
  ∀ i k : Fin 4, State.reset.registerValue (.accSlice i k) = (Config.iv.get i).extractLsb' (32 * k.val) 32

/-- R115, R117: a Reset step, in every state, gives every element its reset value at once and abandons a pending
command; applied and held, it does the same and leaves rst_n at 0. -/
def Obligations.ResetStepSetsEverything : Prop :=
  ∀ (s : State) (rest : List HostOp),
    (HostIssues .reset rest s → step s = .next
      { s.issued rest with
        acc := Config.iv, digest := Vector.replicate 32 0, len := 0, errIllegal := false, errOverrun := false,
        pending := none, phase := .running }) ∧
    (HostIssues .holdReset rest s → step s = .next
      { s.issued rest with
        acc := Config.iv, digest := Vector.replicate 32 0, len := 0, errIllegal := false, errOverrun := false,
        pending := none, phase := .held })

/-- R115: while rst_n is 0 no command is performed, 32-bit reads return unspecified values and writes have no effect;
when rst_n is released the block runs. -/
def Obligations.HeldResetIgnoresAccesses : Prop :=
  ∀ (s : State) (rest : List HostOp), s.phase = .held →
    s.mover = .host ∧
    (∀ off : Byte, off.toNat % 4 = 0 → HostIssues (.read .w32 off) rest s → step s =
      .next { s with program := rest, replies := s.replies ++ [Config.freeRead s.draws], draws := s.draws + 1 }) ∧
    (∀ (off : Byte) (v : Word32), off.toNat % 4 = 0 → HostIssues (.write .w32 off v) rest s →
      step s = .next { s with program := rest }) ∧
    (HostIssues .releaseReset rest s → step s = .next { s with program := rest, phase := .running })

/-- R119: before the first reset after power-up the state is unknown; the model refuses every host operation but a
reset (log 8; that it refuses is 93_implementation_defined.md's treatment). -/
def Obligations.NothingButResetBeforeTheFirstReset : Prop :=
  ∀ (s : State) (rest : List HostOp) (op : HostOp), s.phase = .unknown → HostIssues op rest s →
    (op ≠ .reset ∧ op ≠ .holdReset ↔ ∃ r, step s = .refused r)

/-- R126 on the machine: "the busy time of a command is a function of the command alone". Run two states that differ in
data only (the values of ACC, DIGEST and the replies, and the DATA bytes of the commands pending and to write) for the
same number of steps in the same order of turns: where one run answers a next state so does the other, and the two
still differ in data only; so BUSY is 1 in the same steps of both runs, the commands they wait for have one latency,
the same CMD writes overrun or are illegal, and the host polls, reads and ends in the same steps. Busy time is counted
in the model's steps, because the model has no clock (log 5), and the order of the agents is the list of turns
(log 2). -/
def Obligations.LatencyIsDataIndependent : Prop :=
  ∀ (k : Nat) (s s' t : State), DifferInDataOnly s s' → run k s = .next t →
    ∃ t', run k s' = .next t' ∧ DifferInDataOnly t t' ∧ t.busy = t'.busy ∧
      t.pending.map Pending.latency = t'.pending.map Pending.latency ∧
      t.errIllegal = t'.errIllegal ∧ t.errOverrun = t'.errOverrun ∧ t.program.length = t'.program.length

/-! ### Whole-machine rules -/

/-- R82 as an invariant: in every step ACC[i][127:64] stays IV[i][127:64]. -/
def Obligations.HighHalvesKeptByEveryStep : Prop :=
  ∀ s t : State, HighHalvesOfIv s → step s = .next t → HighHalvesOfIv t

/-- The invariant of the high halves holds after reset. -/
def Obligations.HighHalvesHoldAtReset : Prop := HighHalvesOfIv State.reset

/-- R97, R106: a host that keeps to 32-bit accesses at multiples of 4, after a reset, is never refused: every step
answers a next state, from which the same holds. -/
def Obligations.InDomainRunsNeverStop : Prop :=
  ∀ s : State, InDomain s → ∃ t, step s = .next t ∧ InDomain t

/-- R19: only a completing INIT, ABSORB or FINAL and reset write ACC. -/
def Obligations.AccWriters : Prop :=
  ∀ s t : State, step s = .next t → t.acc ≠ s.acc → (∃ c, CoreCompletes c s) ∨ HostResets s

/-- R24: only a completing FINAL and reset write DIGEST. -/
def Obligations.DigestWriters : Prop :=
  ∀ s t : State, step s = .next t → t.digest ≠ s.digest → CoreCompletes .final s ∨ HostResets s

/-- R25: LEN changes only when an ABSORB completes, by 1 modulo 2^32, or to 0 when INIT or FINAL completes or on
reset. -/
def Obligations.LenWriters : Prop :=
  ∀ s t : State, step s = .next t → t.len ≠ s.len →
    (∃ d, CoreCompletes (.absorb d) s ∧ t.len.toNat = (s.len.toNat + 1) % 2 ^ 32) ∨
    ((CoreCompletes .init s ∨ CoreCompletes .final s ∨ HostResets s) ∧ t.len = 0)

/-- R28: ERR_ILLEGAL is set only by an illegal CMD word written while BUSY = 0, and cleared only by a CLRERR written
while BUSY = 0 or by reset. -/
def Obligations.ErrIllegalIsSticky : Prop :=
  ∀ s t : State, step s = .next t →
    (s.errIllegal = false → t.errIllegal = true →
      ∃ w why, HostWritesCmd w s ∧ s.busy = false ∧ decode w = .illegal why) ∧
    (s.errIllegal = true → t.errIllegal = false →
      (∃ w, HostWritesCmd w s ∧ s.busy = false ∧ decode w = .command .clrerr) ∨ HostResets s)

/-- R29: ERR_OVERRUN is set only by a CMD write while BUSY = 1, and cleared only by a CLRERR written while BUSY = 0 or
by reset. -/
def Obligations.ErrOverrunIsSticky : Prop :=
  ∀ s t : State, step s = .next t →
    (s.errOverrun = false → t.errOverrun = true → ∃ w, HostWritesCmd w s ∧ s.busy = true) ∧
    (s.errOverrun = true → t.errOverrun = false →
      (∃ w, HostWritesCmd w s ∧ s.busy = false ∧ decode w = .command .clrerr) ∨ HostResets s)

/-- R27, R30: BUSY becomes 1 only when a CMD write is accepted for INIT, ABSORB or FINAL, and 0 only when the command
completes or on reset; PENDING never changes from one command to another. -/
def Obligations.BusyFollowsAcceptanceAndCompletion : Prop :=
  ∀ s t : State, step s = .next t →
    (s.busy = true ↔ s.pending ≠ none) ∧
    (s.busy = false → t.busy = true →
      ∃ w i c, HostWritesCmd w s ∧ decode w = .command i ∧ pendingOf i = some c ∧ t.pending = some c) ∧
    (s.busy = true → t.busy = false → (∃ c, CoreCompletes c s) ∨ HostResets s) ∧
    (s.busy = true → t.busy = true → t.pending = s.pending)
end

