-- ==== Sys2Proof/Laws/State.lean ====
section
/-! SUPPORT. One lemma per field per named update of State, each true by rfl, so that no proof unfolds a record update;
and what taking a turn, reading and issuing leave of each field. -/

namespace Sys2Proof.Machine

variable (s : State)

@[simp] theorem raiseIllegalCommand_acc : (s.raiseIllegalCommand).acc = s.acc := rfl
@[simp] theorem raiseIllegalCommand_digest : (s.raiseIllegalCommand).digest = s.digest := rfl
@[simp] theorem raiseIllegalCommand_len : (s.raiseIllegalCommand).len = s.len := rfl
@[simp] theorem raiseIllegalCommand_errIllegal : (s.raiseIllegalCommand).errIllegal = true := rfl
@[simp] theorem raiseIllegalCommand_errOverrun : (s.raiseIllegalCommand).errOverrun = s.errOverrun := rfl
@[simp] theorem raiseIllegalCommand_pending : (s.raiseIllegalCommand).pending = s.pending := rfl
@[simp] theorem raiseIllegalCommand_phase : (s.raiseIllegalCommand).phase = s.phase := rfl
@[simp] theorem raiseIllegalCommand_program : (s.raiseIllegalCommand).program = s.program := rfl
@[simp] theorem raiseIllegalCommand_replies : (s.raiseIllegalCommand).replies = s.replies := rfl
@[simp] theorem raiseIllegalCommand_turns : (s.raiseIllegalCommand).turns = s.turns := rfl
@[simp] theorem raiseIllegalCommand_draws : (s.raiseIllegalCommand).draws = s.draws := rfl

@[simp] theorem raiseCommandOverrun_acc : (s.raiseCommandOverrun).acc = s.acc := rfl
@[simp] theorem raiseCommandOverrun_digest : (s.raiseCommandOverrun).digest = s.digest := rfl
@[simp] theorem raiseCommandOverrun_len : (s.raiseCommandOverrun).len = s.len := rfl
@[simp] theorem raiseCommandOverrun_errIllegal : (s.raiseCommandOverrun).errIllegal = s.errIllegal := rfl
@[simp] theorem raiseCommandOverrun_errOverrun : (s.raiseCommandOverrun).errOverrun = true := rfl
@[simp] theorem raiseCommandOverrun_pending : (s.raiseCommandOverrun).pending = s.pending := rfl
@[simp] theorem raiseCommandOverrun_phase : (s.raiseCommandOverrun).phase = s.phase := rfl
@[simp] theorem raiseCommandOverrun_program : (s.raiseCommandOverrun).program = s.program := rfl
@[simp] theorem raiseCommandOverrun_replies : (s.raiseCommandOverrun).replies = s.replies := rfl
@[simp] theorem raiseCommandOverrun_turns : (s.raiseCommandOverrun).turns = s.turns := rfl
@[simp] theorem raiseCommandOverrun_draws : (s.raiseCommandOverrun).draws = s.draws := rfl

@[simp] theorem clearErrors_acc : (s.clearErrors).acc = s.acc := rfl
@[simp] theorem clearErrors_digest : (s.clearErrors).digest = s.digest := rfl
@[simp] theorem clearErrors_len : (s.clearErrors).len = s.len := rfl
@[simp] theorem clearErrors_errIllegal : (s.clearErrors).errIllegal = false := rfl
@[simp] theorem clearErrors_errOverrun : (s.clearErrors).errOverrun = false := rfl
@[simp] theorem clearErrors_pending : (s.clearErrors).pending = s.pending := rfl
@[simp] theorem clearErrors_phase : (s.clearErrors).phase = s.phase := rfl
@[simp] theorem clearErrors_program : (s.clearErrors).program = s.program := rfl
@[simp] theorem clearErrors_replies : (s.clearErrors).replies = s.replies := rfl
@[simp] theorem clearErrors_turns : (s.clearErrors).turns = s.turns := rfl
@[simp] theorem clearErrors_draws : (s.clearErrors).draws = s.draws := rfl

@[simp] theorem loadIv_acc (p : Params) : (s.loadIv p).acc = p.iv := rfl
@[simp] theorem loadIv_digest (p : Params) : (s.loadIv p).digest = s.digest := rfl
@[simp] theorem loadIv_len (p : Params) : (s.loadIv p).len = 0 := rfl
@[simp] theorem loadIv_errIllegal (p : Params) : (s.loadIv p).errIllegal = s.errIllegal := rfl
@[simp] theorem loadIv_errOverrun (p : Params) : (s.loadIv p).errOverrun = s.errOverrun := rfl
@[simp] theorem loadIv_pending (p : Params) : (s.loadIv p).pending = s.pending := rfl
@[simp] theorem loadIv_phase (p : Params) : (s.loadIv p).phase = s.phase := rfl
@[simp] theorem loadIv_program (p : Params) : (s.loadIv p).program = s.program := rfl
@[simp] theorem loadIv_replies (p : Params) : (s.loadIv p).replies = s.replies := rfl
@[simp] theorem loadIv_turns (p : Params) : (s.loadIv p).turns = s.turns := rfl
@[simp] theorem loadIv_draws (p : Params) : (s.loadIv p).draws = s.draws := rfl

@[simp] theorem mergeByte_acc (p : Params) (d : Byte) : (s.mergeByte p d).acc = s.acc.xor (contribution p d) := rfl
@[simp] theorem mergeByte_digest (p : Params) (d : Byte) : (s.mergeByte p d).digest = s.digest := rfl
@[simp] theorem mergeByte_len (p : Params) (d : Byte) : (s.mergeByte p d).len = s.len + 1 := rfl
@[simp] theorem mergeByte_errIllegal (p : Params) (d : Byte) : (s.mergeByte p d).errIllegal = s.errIllegal := rfl
@[simp] theorem mergeByte_errOverrun (p : Params) (d : Byte) : (s.mergeByte p d).errOverrun = s.errOverrun := rfl
@[simp] theorem mergeByte_pending (p : Params) (d : Byte) : (s.mergeByte p d).pending = s.pending := rfl
@[simp] theorem mergeByte_phase (p : Params) (d : Byte) : (s.mergeByte p d).phase = s.phase := rfl
@[simp] theorem mergeByte_program (p : Params) (d : Byte) : (s.mergeByte p d).program = s.program := rfl
@[simp] theorem mergeByte_replies (p : Params) (d : Byte) : (s.mergeByte p d).replies = s.replies := rfl
@[simp] theorem mergeByte_turns (p : Params) (d : Byte) : (s.mergeByte p d).turns = s.turns := rfl
@[simp] theorem mergeByte_draws (p : Params) (d : Byte) : (s.mergeByte p d).draws = s.draws := rfl

@[simp] theorem produceDigest_acc (p : Params) : (s.produceDigest p).acc = p.iv := rfl
@[simp] theorem produceDigest_digest (p : Params) : (s.produceDigest p).digest = finalize s.acc := rfl
@[simp] theorem produceDigest_len (p : Params) : (s.produceDigest p).len = 0 := rfl
@[simp] theorem produceDigest_errIllegal (p : Params) : (s.produceDigest p).errIllegal = s.errIllegal := rfl
@[simp] theorem produceDigest_errOverrun (p : Params) : (s.produceDigest p).errOverrun = s.errOverrun := rfl
@[simp] theorem produceDigest_pending (p : Params) : (s.produceDigest p).pending = s.pending := rfl
@[simp] theorem produceDigest_phase (p : Params) : (s.produceDigest p).phase = s.phase := rfl
@[simp] theorem produceDigest_program (p : Params) : (s.produceDigest p).program = s.program := rfl
@[simp] theorem produceDigest_replies (p : Params) : (s.produceDigest p).replies = s.replies := rfl
@[simp] theorem produceDigest_turns (p : Params) : (s.produceDigest p).turns = s.turns := rfl
@[simp] theorem produceDigest_draws (p : Params) : (s.produceDigest p).draws = s.draws := rfl

@[simp] theorem acceptCommand_acc (c : Pending) : (s.acceptCommand c).acc = s.acc := rfl
@[simp] theorem acceptCommand_digest (c : Pending) : (s.acceptCommand c).digest = s.digest := rfl
@[simp] theorem acceptCommand_len (c : Pending) : (s.acceptCommand c).len = s.len := rfl
@[simp] theorem acceptCommand_errIllegal (c : Pending) : (s.acceptCommand c).errIllegal = s.errIllegal := rfl
@[simp] theorem acceptCommand_errOverrun (c : Pending) : (s.acceptCommand c).errOverrun = s.errOverrun := rfl
@[simp] theorem acceptCommand_pending (c : Pending) : (s.acceptCommand c).pending = some c := rfl
@[simp] theorem acceptCommand_phase (c : Pending) : (s.acceptCommand c).phase = s.phase := rfl
@[simp] theorem acceptCommand_program (c : Pending) : (s.acceptCommand c).program = s.program := rfl
@[simp] theorem acceptCommand_replies (c : Pending) : (s.acceptCommand c).replies = s.replies := rfl
@[simp] theorem acceptCommand_turns (c : Pending) : (s.acceptCommand c).turns = s.turns := rfl
@[simp] theorem acceptCommand_draws (c : Pending) : (s.acceptCommand c).draws = s.draws := rfl

@[simp] theorem retireCommand_acc : (s.retireCommand).acc = s.acc := rfl
@[simp] theorem retireCommand_digest : (s.retireCommand).digest = s.digest := rfl
@[simp] theorem retireCommand_len : (s.retireCommand).len = s.len := rfl
@[simp] theorem retireCommand_errIllegal : (s.retireCommand).errIllegal = s.errIllegal := rfl
@[simp] theorem retireCommand_errOverrun : (s.retireCommand).errOverrun = s.errOverrun := rfl
@[simp] theorem retireCommand_pending : (s.retireCommand).pending = none := rfl
@[simp] theorem retireCommand_phase : (s.retireCommand).phase = s.phase := rfl
@[simp] theorem retireCommand_program : (s.retireCommand).program = s.program := rfl
@[simp] theorem retireCommand_replies : (s.retireCommand).replies = s.replies := rfl
@[simp] theorem retireCommand_turns : (s.retireCommand).turns = s.turns := rfl
@[simp] theorem retireCommand_draws : (s.retireCommand).draws = s.draws := rfl

@[simp] theorem applyReset_acc (ph : ResetPhase) : (s.applyReset ph).acc = Config.iv := rfl
@[simp] theorem applyReset_digest (ph : ResetPhase) : (s.applyReset ph).digest = Vector.replicate digestBytes 0 := rfl
@[simp] theorem applyReset_len (ph : ResetPhase) : (s.applyReset ph).len = 0 := rfl
@[simp] theorem applyReset_errIllegal (ph : ResetPhase) : (s.applyReset ph).errIllegal = false := rfl
@[simp] theorem applyReset_errOverrun (ph : ResetPhase) : (s.applyReset ph).errOverrun = false := rfl
@[simp] theorem applyReset_pending (ph : ResetPhase) : (s.applyReset ph).pending = none := rfl
@[simp] theorem applyReset_phase (ph : ResetPhase) : (s.applyReset ph).phase = ph := rfl
@[simp] theorem applyReset_program (ph : ResetPhase) : (s.applyReset ph).program = s.program := rfl
@[simp] theorem applyReset_replies (ph : ResetPhase) : (s.applyReset ph).replies = s.replies := rfl
@[simp] theorem applyReset_turns (ph : ResetPhase) : (s.applyReset ph).turns = s.turns := rfl
@[simp] theorem applyReset_draws (ph : ResetPhase) : (s.applyReset ph).draws = s.draws := rfl

@[simp] theorem reply_acc (v : Word32) : (s.reply v).acc = s.acc := rfl
@[simp] theorem reply_digest (v : Word32) : (s.reply v).digest = s.digest := rfl
@[simp] theorem reply_len (v : Word32) : (s.reply v).len = s.len := rfl
@[simp] theorem reply_errIllegal (v : Word32) : (s.reply v).errIllegal = s.errIllegal := rfl
@[simp] theorem reply_errOverrun (v : Word32) : (s.reply v).errOverrun = s.errOverrun := rfl
@[simp] theorem reply_pending (v : Word32) : (s.reply v).pending = s.pending := rfl
@[simp] theorem reply_phase (v : Word32) : (s.reply v).phase = s.phase := rfl
@[simp] theorem reply_program (v : Word32) : (s.reply v).program = s.program := rfl
@[simp] theorem reply_replies (v : Word32) : (s.reply v).replies = s.replies ++ [v] := rfl
@[simp] theorem reply_turns (v : Word32) : (s.reply v).turns = s.turns := rfl
@[simp] theorem reply_draws (v : Word32) : (s.reply v).draws = s.draws := rfl

@[simp] theorem drawOne_acc : (s.drawOne).acc = s.acc := rfl
@[simp] theorem drawOne_digest : (s.drawOne).digest = s.digest := rfl
@[simp] theorem drawOne_len : (s.drawOne).len = s.len := rfl
@[simp] theorem drawOne_errIllegal : (s.drawOne).errIllegal = s.errIllegal := rfl
@[simp] theorem drawOne_errOverrun : (s.drawOne).errOverrun = s.errOverrun := rfl
@[simp] theorem drawOne_pending : (s.drawOne).pending = s.pending := rfl
@[simp] theorem drawOne_phase : (s.drawOne).phase = s.phase := rfl
@[simp] theorem drawOne_program : (s.drawOne).program = s.program := rfl
@[simp] theorem drawOne_replies : (s.drawOne).replies = s.replies := rfl
@[simp] theorem drawOne_turns : (s.drawOne).turns = s.turns := rfl
@[simp] theorem drawOne_draws : (s.drawOne).draws = s.draws + 1 := rfl

@[simp] theorem takeTurn_acc : s.takeTurn.acc = s.acc := by
  unfold State.takeTurn; split <;> rfl
@[simp] theorem takeTurn_digest : s.takeTurn.digest = s.digest := by
  unfold State.takeTurn; split <;> rfl
@[simp] theorem takeTurn_len : s.takeTurn.len = s.len := by
  unfold State.takeTurn; split <;> rfl
@[simp] theorem takeTurn_errIllegal : s.takeTurn.errIllegal = s.errIllegal := by
  unfold State.takeTurn; split <;> rfl
@[simp] theorem takeTurn_errOverrun : s.takeTurn.errOverrun = s.errOverrun := by
  unfold State.takeTurn; split <;> rfl
@[simp] theorem takeTurn_pending : s.takeTurn.pending = s.pending := by
  unfold State.takeTurn; split <;> rfl
@[simp] theorem takeTurn_phase : s.takeTurn.phase = s.phase := by
  unfold State.takeTurn; split <;> rfl
@[simp] theorem takeTurn_program : s.takeTurn.program = s.program := by
  unfold State.takeTurn; split <;> rfl
@[simp] theorem takeTurn_replies : s.takeTurn.replies = s.replies := by
  unfold State.takeTurn; split <;> rfl
@[simp] theorem takeTurn_draws : s.takeTurn.draws = s.draws := by
  unfold State.takeTurn; split <;> rfl

@[simp] theorem afterRead_acc (r : Register) : (s.afterRead r).acc = s.acc := by
  unfold State.afterRead; split <;> rfl
@[simp] theorem afterRead_digest (r : Register) : (s.afterRead r).digest = s.digest := by
  unfold State.afterRead; split <;> rfl
@[simp] theorem afterRead_len (r : Register) : (s.afterRead r).len = s.len := by
  unfold State.afterRead; split <;> rfl
@[simp] theorem afterRead_errIllegal (r : Register) : (s.afterRead r).errIllegal = s.errIllegal := by
  unfold State.afterRead; split <;> rfl
@[simp] theorem afterRead_errOverrun (r : Register) : (s.afterRead r).errOverrun = s.errOverrun := by
  unfold State.afterRead; split <;> rfl
@[simp] theorem afterRead_pending (r : Register) : (s.afterRead r).pending = s.pending := by
  unfold State.afterRead; split <;> rfl
@[simp] theorem afterRead_phase (r : Register) : (s.afterRead r).phase = s.phase := by
  unfold State.afterRead; split <;> rfl
@[simp] theorem afterRead_program (r : Register) : (s.afterRead r).program = s.program := by
  unfold State.afterRead; split <;> rfl
@[simp] theorem afterRead_replies (r : Register) : (s.afterRead r).replies = s.replies := by
  unfold State.afterRead; split <;> rfl
@[simp] theorem afterRead_turns (r : Register) : (s.afterRead r).turns = s.turns := by
  unfold State.afterRead; split <;> rfl

@[simp] theorem issued_acc (rest : List HostOp) : (s.issued rest).acc = s.acc := takeTurn_acc s
@[simp] theorem issued_digest (rest : List HostOp) : (s.issued rest).digest = s.digest := takeTurn_digest s
@[simp] theorem issued_len (rest : List HostOp) : (s.issued rest).len = s.len := takeTurn_len s
@[simp] theorem issued_errIllegal (rest : List HostOp) : (s.issued rest).errIllegal = s.errIllegal := takeTurn_errIllegal s
@[simp] theorem issued_errOverrun (rest : List HostOp) : (s.issued rest).errOverrun = s.errOverrun := takeTurn_errOverrun s
@[simp] theorem issued_pending (rest : List HostOp) : (s.issued rest).pending = s.pending := takeTurn_pending s
@[simp] theorem issued_phase (rest : List HostOp) : (s.issued rest).phase = s.phase := takeTurn_phase s
@[simp] theorem issued_program (rest : List HostOp) : (s.issued rest).program = rest := rfl
@[simp] theorem issued_replies (rest : List HostOp) : (s.issued rest).replies = s.replies := takeTurn_replies s
@[simp] theorem issued_turns (rest : List HostOp) : (s.issued rest).turns = s.takeTurn.turns := rfl
@[simp] theorem issued_draws (rest : List HostOp) : (s.issued rest).draws = s.draws := takeTurn_draws s

end Sys2Proof.Machine
end

