-- ==== Sys2Proof/Laws/Step.lean ====
section
/-! SUPPORT. What each operation of the two agents can do, said once: whose turn it is, the host's operations one by
one, the core's completion, and the inversion of a step. -/

namespace Sys2Proof.Machine

/-! ### Whose turn it is -/

/-- The core moves exactly where the next turn is its own, or the turns are used up, while a command is pending out of
reset. -/
theorem mover_eq_core (s : State) :
    s.mover = .core ↔ s.phase = .running ∧ s.pending ≠ none ∧ s.turns.head?.getD .core = .core := by
  unfold State.mover
  cases s.phase <;> cases s.pending <;> simp

theorem mover_eq_host (s : State) :
    s.mover = .host ↔ s.phase ≠ .running ∨ s.pending = none ∨ s.turns.head? = some .host := by
  unfold State.mover
  cases s.phase <;> cases s.pending <;> simp
  cases s.turns with
  | nil => simp
  | cons a l => simp

/-- With nothing pending the host moves. -/
theorem mover_of_idle {s : State} (h : s.pending = none) : s.mover = .host := (mover_eq_host s).2 (.inr (.inl h))

/-- With nothing pending no turn is used up. -/
theorem takeTurn_of_idle {s : State} (h : s.pending = none) : s.takeTurn = s := by
  unfold State.takeTurn; rw [h]; cases s.phase <;> rfl

/-- Out of the running phase no turn is used up. -/
theorem takeTurn_of_not_running {s : State} (h : s.phase ≠ .running) : s.takeTurn = s := by
  unfold State.takeTurn
  cases hp : s.phase <;> simp_all

/-- While a command is pending a step uses up one turn. -/
theorem takeTurn_of_pending {s : State} (hr : s.phase = .running) (hp : s.pending ≠ none) :
    s.takeTurn = { s with turns := s.turns.tail } := by
  unfold State.takeTurn
  cases h : s.pending <;> simp_all

@[simp] theorem busy_iff (s : State) : s.busy = true ↔ s.pending ≠ none := by
  unfold State.busy; cases s.pending <;> simp

@[simp] theorem busy_eq_false (s : State) : s.busy = false ↔ s.pending = none := by
  unfold State.busy; cases s.pending <;> simp

/-! ### The step by agent -/

/-- A step in which the host issues `op` is that operation, performed with the operation taken off the program. -/
theorem step_of_hostIssues {s : State} {op : HostOp} {rest : List HostOp} (h : HostIssues op rest s) :
    step s = performHostOp op (s.issued rest) := by
  obtain ⟨hm, hp⟩ := h
  simp [step, agentStep, hm, hostStep, hp, State.issued]

/-- A step of a host with nothing to do only uses up its turn. -/
theorem step_of_host_done {s : State} (hm : s.mover = .host) (hp : s.program = []) : step s = .next s.takeTurn := by
  simp [step, agentStep, hm, hostStep, hp]

/-- A step in which the core moves performs the pending command and retires it. -/
theorem step_of_coreCompletes {s : State} {c : Pending} (h : CoreCompletes c s) :
    step s = andThen (exec c.toInstr s.takeTurn) fun t => .next t.retireCommand := by
  obtain ⟨hm, hc⟩ := h
  simp [step, agentStep, hm, coreComplete, hc]

/-- Every state is in one of three cases: the core completes a command, the host issues an operation, or the host has
none left. -/
theorem step_trichotomy (s : State) :
    (∃ c, CoreCompletes c s) ∨ (∃ op rest, HostIssues op rest s) ∨ (s.mover = .host ∧ s.program = []) := by
  cases hm : s.mover with
  | core =>
    obtain ⟨-, hp, -⟩ := (mover_eq_core s).1 hm
    exact .inl (by cases hc : s.pending with
      | none => exact absurd hc hp
      | some c => exact ⟨c, hm, hc⟩)
  | host =>
    cases hp : s.program with
    | nil => exact .inr (.inr ⟨rfl, rfl⟩)
    | cons op rest => exact .inr (.inl ⟨op, rest, hm, hp⟩)

/-! ### The pending commands -/

/-- The effect of a completing command, with PENDING none after it. -/
def completed (c : Pending) (s : State) : State :=
  match c with
  | .init => (s.loadIv Config.params).retireCommand
  | .absorb d => (s.mergeByte Config.params d).retireCommand
  | .final => (s.produceDigest Config.params).retireCommand

theorem step_completes {s : State} {c : Pending} (h : CoreCompletes c s) : step s = .next (completed c s.takeTurn) := by
  rw [step_of_coreCompletes h]; cases c <;> rfl

/-- Every command has an effect in every state. -/
theorem exec_next (i : Instr) (s : State) : ∃ t, exec i s = .next t := by cases i <;> exact ⟨_, rfl⟩

/-! ### The host's operations -/

theorem registerAt_eq_cmd (off : Byte) (h : off.toNat % 4 = 0) : registerAt off = .cmd ↔ off = 0x08 := by
  revert off; decide

theorem registerAt_offset (r : Register) : registerAt r.offset = r := by
  cases r with
  | id => rfl
  | status => rfl
  | cmd => rfl
  | len => rfl
  | reserved k => revert k; decide
  | digestW k => revert k; decide
  | accSlice i k => revert i k; decide
  | unmapped k => revert k; decide

theorem offset_aligned (r : Register) : r.offset.toNat % 4 = 0 := by
  cases r with
  | id => rfl
  | status => rfl
  | cmd => rfl
  | len => rfl
  | reserved k => revert k; decide
  | digestW k => revert k; decide
  | accSlice i k => revert i k; decide
  | unmapped k => revert k; decide

@[simp] theorem accessLegal_eq_true (width : AccessWidth) (off : Byte) :
    accessLegal width off = true ↔ width = .w32 ∧ off.toNat % 4 = 0 := by
  simp [accessLegal]

/-- An operation the bus does not define is refused in every state. -/
theorem perform_illegal {op : HostOp} (h : hostOpLegal op = false) (s : State) :
    performHostOp op s = .refused .hostProtocolViolation := by
  simp [performHostOp, h]

/-- A 32-bit write at a multiple of 4, after the first reset. -/
theorem perform_write {s : State} {off : Byte} (v : Word32) (ha : off.toNat % 4 = 0) (hp : s.phase ≠ .unknown) :
    performHostOp (.write .w32 off v) s = writeRegister (registerAt off) v s := by
  simp [performHostOp, hostOpLegal, accessLegal, ha, hp]

/-- A 32-bit read at a multiple of 4, after the first reset. -/
theorem perform_read {s : State} {off : Byte} (ha : off.toNat % 4 = 0) (hp : s.phase ≠ .unknown) :
    performHostOp (.read .w32 off) s =
      .next ((s.afterRead (registerAt off)).reply (s.readValue (registerAt off))) := by
  simp [performHostOp, hostOpLegal, accessLegal, ha, hp, readRegister]

/-- A write while rst_n is 0, or anywhere but at CMD, changes nothing. -/
theorem writeRegister_ignored {r : Register} {s : State} (v : Word32) (h : s.phase = .held ∨ r ≠ .cmd) :
    writeRegister r v s = .next s := by
  unfold writeRegister
  split
  · rfl
  · cases r <;> simp_all

/-- A write of CMD out of reset is the command protocol. -/
theorem writeRegister_cmd {s : State} (v : Word32) (h : s.phase ≠ .held) :
    writeRegister .cmd v s = writeCommand v s := by
  simp [writeRegister, h]

theorem writeCommand_busy {s : State} (w : Word32) (h : s.pending ≠ none) :
    writeCommand w s = .next s.raiseCommandOverrun := by
  simp [writeCommand, h]

theorem writeCommand_illegal {s : State} {w : Word32} {why : IllegalReason} (h : s.pending = none)
    (hd : decode w = .illegal why) : writeCommand w s = .next s.raiseIllegalCommand := by
  have hb : s.busy = false := (busy_eq_false s).2 h
  simp [writeCommand, hb, hd]

theorem writeCommand_accepted {s : State} {w : Word32} {i : Instr} {c : Pending} (h : s.pending = none)
    (hd : decode w = .command i) (hc : pendingOf i = some c) : writeCommand w s = .next (s.acceptCommand c) := by
  have hb : s.busy = false := (busy_eq_false s).2 h
  simp [writeCommand, hb, hd, hc]

theorem writeCommand_immediate {s : State} {w : Word32} {i : Instr} (h : s.pending = none)
    (hd : decode w = .command i) (hc : pendingOf i = none) : writeCommand w s = exec i s := by
  have hb : s.busy = false := (busy_eq_false s).2 h
  simp [writeCommand, hb, hd, hc]

/-- A command that is performed within its write is NOP or CLRERR. -/
theorem pendingOf_eq_none {i : Instr} : pendingOf i = none ↔ i = .nop ∨ i = .clrerr := by
  cases i <;> simp [pendingOf]

theorem pendingOf_toInstr (c : Pending) : pendingOf c.toInstr = some c := by cases c <;> rfl

theorem toInstr_of_pendingOf {i : Instr} {c : Pending} (h : pendingOf i = some c) : c.toInstr = i := by
  cases i <;> simp [pendingOf] at h <;> subst h <;> rfl

/-- A step in which the host writes a word to CMD, out of reset, is the command protocol. -/
theorem step_cmd_write {s : State} {w : Word32} {rest : List HostOp}
    (h : HostIssues (.write .w32 0x08 w) rest s) (hr : s.phase = .running) :
    step s = writeCommand w (s.issued rest) := by
  rw [step_of_hostIssues h, perform_write w (by decide) (by simp [hr]),
    show registerAt 0x08 = .cmd from rfl, writeRegister_cmd w (by simp [hr])]

/-- Everything a write of a command word can do, where it answers a next state. -/
theorem writeCommand_cases {s t : State} {w : Word32} (h : writeCommand w s = .next t) :
    (s.pending ≠ none ∧ t = s.raiseCommandOverrun) ∨
    (s.pending = none ∧ (∃ why, decode w = .illegal why) ∧ t = s.raiseIllegalCommand) ∨
    (s.pending = none ∧ (∃ i c, decode w = .command i ∧ pendingOf i = some c ∧ t = s.acceptCommand c)) ∨
    (s.pending = none ∧ decode w = .command .nop ∧ t = s) ∨
    (s.pending = none ∧ decode w = .command .clrerr ∧ t = s.clearErrors) := by
  by_cases hp : s.pending = none
  · cases hd : decode w with
    | illegal why =>
      rw [writeCommand_illegal hp hd] at h
      exact .inr (.inl ⟨hp, ⟨why, rfl⟩, by simpa using h.symm⟩)
    | command i =>
      cases hc : pendingOf i with
      | some c =>
        rw [writeCommand_accepted hp hd hc] at h
        exact .inr (.inr (.inl ⟨hp, i, c, rfl, hc, by simpa using h.symm⟩))
      | none =>
        rw [writeCommand_immediate hp hd hc] at h
        rcases pendingOf_eq_none.1 hc with rfl | rfl
        · exact .inr (.inr (.inr (.inl ⟨hp, rfl, by simpa [exec, execNop] using h.symm⟩)))
        · exact .inr (.inr (.inr (.inr ⟨hp, rfl, by simpa [exec, execClrerr] using h.symm⟩)))
  · rw [writeCommand_busy w hp] at h
    exact .inl ⟨hp, by simpa using h.symm⟩

/-- Everything a host operation can do, where it answers a next state: a reset, the release of rst_n, a write of a
command word out of reset, a write that is ignored, a read, or a poll. -/
theorem performHostOp_cases {s t : State} {op : HostOp} (h : performHostOp op s = .next t) :
    (op = .reset ∧ t = s.applyReset .running) ∨
    (op = .holdReset ∧ t = s.applyReset .held) ∨
    (op = .releaseReset ∧ s.phase ≠ .unknown ∧ t = { s with phase := .running }) ∨
    (∃ w, op = .write .w32 0x08 w ∧ s.phase = .running ∧ writeCommand w s = .next t) ∨
    (∃ off v, op = .write .w32 off v ∧ s.phase ≠ .unknown ∧ (s.phase = .held ∨ off ≠ 0x08) ∧ t = s) ∨
    (∃ off, op = .read .w32 off ∧ s.phase ≠ .unknown ∧ off.toNat % 4 = 0 ∧
      t = (s.afterRead (registerAt off)).reply (s.readValue (registerAt off))) ∨
    (op = .wait ∧ s.phase ≠ .unknown ∧
      ((s.readValue .status).getLsbD 0 = true ∧ t = { s.afterRead .status with program := .wait :: s.program } ∨
       (s.readValue .status).getLsbD 0 = false ∧ t = s.afterRead .status)) := by
  by_cases hl : hostOpLegal op = true
  swap
  · rw [perform_illegal (by simpa using hl)] at h; simp at h
  by_cases hu : s.phase = .unknown
  · cases op <;> simp_all [performHostOp]
  cases op with
  | reset => exact .inl ⟨rfl, by simpa [performHostOp, hostOpLegal] using h.symm⟩
  | holdReset => exact .inr (.inl ⟨rfl, by simpa [performHostOp, hostOpLegal] using h.symm⟩)
  | releaseReset =>
    exact .inr (.inr (.inl ⟨rfl, hu, by simpa [performHostOp, hostOpLegal, hu] using h.symm⟩))
  | write width off v =>
    obtain ⟨rfl, ha⟩ := (accessLegal_eq_true width off).1 hl
    rw [perform_write v ha hu] at h
    by_cases hc : s.phase = .held ∨ registerAt off ≠ .cmd
    · rw [writeRegister_ignored v hc] at h
      refine .inr (.inr (.inr (.inr (.inl ⟨off, v, rfl, hu, ?_, by simpa using h.symm⟩))))
      rwa [ne_eq, registerAt_eq_cmd off ha] at hc
    · have hh : s.phase ≠ .held ∧ registerAt off = .cmd := by
        constructor
        · exact fun e => hc (.inl e)
        · by_contra e; exact hc (.inr e)
      have ho : off = 0x08 := (registerAt_eq_cmd off ha).1 hh.2
      rw [hh.2, writeRegister_cmd v hh.1] at h
      subst ho
      refine .inr (.inr (.inr (.inl ⟨v, rfl, ?_, h⟩)))
      cases hq : s.phase <;> simp_all
  | read width off =>
    obtain ⟨rfl, ha⟩ := (accessLegal_eq_true width off).1 hl
    rw [perform_read ha hu] at h
    exact .inr (.inr (.inr (.inr (.inr (.inl ⟨off, rfl, hu, ha, by simpa using h.symm⟩)))))
  | wait =>
    refine .inr (.inr (.inr (.inr (.inr (.inr ⟨rfl, hu, ?_⟩)))))
    simp only [performHostOp, hostOpLegal, hu, pollStatus] at h
    cases hb : (s.readValue .status).getLsbD 0 <;> simp_all

/-- Everything a step can do, where it answers a next state. -/
theorem step_cases {s t : State} (h : step s = .next t) :
    (∃ c, CoreCompletes c s ∧ t = completed c s.takeTurn) ∨
    (∃ op rest, HostIssues op rest s ∧ performHostOp op (s.issued rest) = .next t) ∨
    (s.mover = .host ∧ s.program = [] ∧ t = s.takeTurn) := by
  rcases step_trichotomy s with ⟨c, hc⟩ | ⟨op, rest, hi⟩ | ⟨hm, hp⟩
  · rw [step_completes hc] at h
    exact .inl ⟨c, hc, by simpa using h.symm⟩
  · rw [step_of_hostIssues hi] at h
    exact .inr (.inl ⟨op, rest, hi, h⟩)
  · rw [step_of_host_done hm hp] at h
    exact .inr (.inr ⟨hm, hp, by simpa using h.symm⟩)

/-- Everything a step can do to the block's own registers: complete a pending command, reset, write a command word, or
leave them all as they are. -/
theorem step_block_cases {s t : State} (h : step s = .next t) :
    (∃ c, CoreCompletes c s ∧ t = completed c s.takeTurn) ∨
    (HostResets s ∧ ∃ rest phase, t = (s.issued rest).applyReset phase) ∨
    (∃ w rest, HostIssues (.write .w32 0x08 w) rest s ∧ s.phase = .running ∧
      writeCommand w (s.issued rest) = .next t) ∨
    (t.acc = s.acc ∧ t.digest = s.digest ∧ t.len = s.len ∧ t.errIllegal = s.errIllegal ∧
      t.errOverrun = s.errOverrun ∧ t.pending = s.pending) := by
  rcases step_cases h with ⟨c, hc, rfl⟩ | ⟨op, rest, hi, hp⟩ | ⟨-, -, rfl⟩
  · exact .inl ⟨c, hc, rfl⟩
  · rcases performHostOp_cases hp with ⟨rfl, rfl⟩ | ⟨rfl, rfl⟩ | ⟨-, -, rfl⟩ | ⟨w, rfl, hr, hw⟩ |
      ⟨off, v, -, -, -, rfl⟩ | ⟨off, -, -, -, rfl⟩ | ⟨-, -, ⟨-, rfl⟩ | ⟨-, rfl⟩⟩
    · exact .inr (.inl ⟨⟨rest, .inl hi⟩, rest, _, rfl⟩)
    · exact .inr (.inl ⟨⟨rest, .inr hi⟩, rest, _, rfl⟩)
    · exact .inr (.inr (.inr (by simp)))
    · exact .inr (.inr (.inl ⟨w, rest, hi, by simpa using hr, hw⟩))
    all_goals exact .inr (.inr (.inr (by simp)))
  · exact .inr (.inr (.inr (by simp)))

/-! ### Runs -/

@[simp] theorem run_zero (s : State) : run 0 s = .next s := rfl

/-- A run of one step more is a step and then the run. -/
theorem run_succ_eq (k : Nat) (s : State) : run (k + 1) s = andThen (step s) (run k) := by
  simp only [run, Host.Core.run, andThen]
  cases h : step s <;> simp [Sys2Proof.core, h]

/-- A run that starts with a step to a next state goes on from there. -/
theorem run_succ {s t : State} (k : Nat) (h : step s = .next t) : run (k + 1) s = run k t := by
  rw [run_succ_eq, h]; rfl

/-- Runs compose. -/
theorem run_add {s t : State} {k : Nat} (m : Nat) (h : run k s = .next t) : run (k + m) s = run m t := by
  induction k generalizing s with
  | zero => simp only [run_zero, Host.Outcome.next.injEq] at h; subst h; simp
  | succ k ih =>
    cases hs : step s with
    | next u => rw [run_succ k hs] at h; rw [Nat.add_right_comm, run_succ (k + m) hs]; exact ih h
    | fault r => nomatch r
    | refused r =>
      rw [run_succ_eq, hs] at h; simp [andThen] at h

end Sys2Proof.Machine
end

