-- ==== Sys2Proof/Laws/Bus.lean ====
section
/-! SUPPORT. What a completing command leaves alone, what a read returns, and what one poll of WAIT does. -/

namespace Sys2Proof.Machine

/-! ### Completion -/

@[simp] theorem completed_pending (c : Pending) (s : State) : (completed c s).pending = none := by cases c <;> rfl
@[simp] theorem completed_phase (c : Pending) (s : State) : (completed c s).phase = s.phase := by cases c <;> rfl
@[simp] theorem completed_program (c : Pending) (s : State) : (completed c s).program = s.program := by cases c <;> rfl
@[simp] theorem completed_replies (c : Pending) (s : State) : (completed c s).replies = s.replies := by cases c <;> rfl
@[simp] theorem completed_turns (c : Pending) (s : State) : (completed c s).turns = s.turns := by cases c <;> rfl
@[simp] theorem completed_draws (c : Pending) (s : State) : (completed c s).draws = s.draws := by cases c <;> rfl
@[simp] theorem completed_errIllegal (c : Pending) (s : State) : (completed c s).errIllegal = s.errIllegal := by
  cases c <;> rfl
@[simp] theorem completed_errOverrun (c : Pending) (s : State) : (completed c s).errOverrun = s.errOverrun := by
  cases c <;> rfl

/-- What PENDING, the program and the turns hold beside it does not change what a completing command computes. -/
theorem completed_congr (c : Pending) (s : State) (p : Option Pending) (prog : List HostOp) (turns : List Agent) :
    completed c { s with pending := p, program := prog, turns := turns } =
      { completed c s with program := prog, turns := turns } := by cases c <;> rfl

/-! ### Latencies -/

/-- Each latency is "an integer of at least 1" (R10). -/
theorem latency_pos (c : Pending) : 1 ≤ c.latency := by cases c <;> exact Nat.le_add_left 1 _

/-- The latency of ABSORB is the same for every DATA byte (R126). -/
theorem latency_absorb (d d' : Byte) : (Pending.absorb d).latency = (Pending.absorb d').latency := rfl

/-! ### Reads -/

@[simp] theorem issued_busy (s : State) (rest : List HostOp) : (s.issued rest).busy = s.busy := by simp [State.busy]

@[simp] theorem issued_registerValue (s : State) (rest : List HostOp) (r : Register) :
    (s.issued rest).registerValue r = s.registerValue r := by
  cases r <;> simp [State.registerValue, State.statusWord]

/-- Out of reset, a register that holds no result, or any register while BUSY = 0, reads exactly. -/
theorem readUnspecified_eq_false {s : State} {r : Register} (hr : s.phase = .running)
    (h : s.busy = false ∨ r.isResult = false) : s.readUnspecified r = false := by
  simp only [State.readUnspecified, hr]
  rcases h with h | h <;> simp [h]

theorem readValue_exact {s : State} {r : Register} (h : s.readUnspecified r = false) :
    s.readValue r = s.registerValue r ∧ s.afterRead r = s := by
  simp [State.readValue, State.afterRead, h]

theorem readValue_free {s : State} {r : Register} (h : s.readUnspecified r = true) :
    s.readValue r = Config.freeRead s.draws ∧ s.afterRead r = s.drawOne := by
  simp [State.readValue, State.afterRead, h]

/-- Bit 0 of STATUS is BUSY. -/
theorem statusWord_bit_zero (s : State) : s.statusWord.getLsbD 0 = s.busy := by
  simp only [State.statusWord, BitVec.getLsbD_append]
  cases s.busy <;> rfl

/-- A poll out of reset, `s` being the state with WAIT taken off the program. -/
theorem pollStatus_running {s : State} (hr : s.phase = .running) :
    pollStatus s = .next (if s.busy then { s with program := .wait :: s.program } else s) := by
  obtain ⟨hv, ha⟩ := readValue_exact (s := s) (r := .status) (readUnspecified_eq_false hr (.inr rfl))
  unfold pollStatus
  rw [hv, ha, show s.registerValue .status = s.statusWord from rfl, statusWord_bit_zero]
  cases s.busy <;> rfl

/-- WAIT is performed as a poll, after the first reset. -/
theorem perform_wait {s : State} (hp : s.phase ≠ .unknown) : performHostOp .wait s = pollStatus s := by
  simp [performHostOp, hostOpLegal, hp]

/-! ### Packing -/

/-- The bytes of a word put together from bytes. -/
theorem extract_wordOfBytes (b0 b1 b2 b3 : Byte) :
    (wordOfBytes b0 b1 b2 b3).extractLsb' 0 8 = b0 ∧ (wordOfBytes b0 b1 b2 b3).extractLsb' 8 8 = b1 ∧
    (wordOfBytes b0 b1 b2 b3).extractLsb' 16 8 = b2 ∧ (wordOfBytes b0 b1 b2 b3).extractLsb' 24 8 = b3 := by
  refine ⟨?_, ?_, ?_, ?_⟩ <;>
    (apply BitVec.eq_of_getLsbD_eq; intro i hi
     simp only [wordOfBytes, BitVec.getLsbD_append, BitVec.getLsbD_extractLsb'])
  · simp [hi]
  · simp [hi, show 8 + i - 8 = i by omega, show ¬ 8 + i < 8 by omega]
  · simp [hi, show ¬ 16 + i < 8 by omega, show ¬ 16 + i - 8 < 8 by omega, show 16 + i - 8 - 8 = i by omega]
  · simp [hi, show ¬ 24 + i < 8 by omega, show ¬ 24 + i - 8 < 8 by omega, show ¬ 24 + i - 8 - 8 < 8 by omega,
      show 24 + i - 8 - 8 - 8 = i by omega]

/-- A slice of a slice. -/
theorem extract_extract (v : U128) {a b c d : Nat} (h : c + d ≤ b) :
    (v.extractLsb' a b).extractLsb' c d = v.extractLsb' (a + c) d := by
  apply BitVec.eq_of_getLsbD_eq; intro i hi
  simp only [BitVec.getLsbD_extractLsb', hi, show c + i < b by omega, Nat.add_assoc]; simp

end Sys2Proof.Machine
end

