-- ==== Sys2Proof/Laws/Datapath.lean ====
section
/-! SUPPORT. The algebra of the hash state (word access, XOR), XOR over a list, and what the datapath's functions
keep. -/

namespace Sys2Proof

open Machine

/-- A word is below 2^128, the width in numerals. -/
theorem U128.toNat_lt (v : U128) : v.toNat < 2 ^ 128 := v.isLt

namespace HashState

/-- The words of a state written out. -/
@[simp] theorem get_mk (v : Vector U128 wordCount) (i : Fin wordCount) : (⟨v⟩ : HashState).get i = v[i] := rfl

/-- Two states with the same words are the same state. -/
theorem ext_get {a b : HashState} (h : ∀ i, a.get i = b.get i) : a = b := by
  cases a; cases b
  exact congrArg HashState.mk (Vector.ext fun i hi => h ⟨i, hi⟩)

theorem get_set_self (s : HashState) (i : Fin wordCount) (v : U128) : (s.set i v).get i = v := by
  simp [set]

theorem get_set_ne (s : HashState) {i j : Fin wordCount} (v : U128) (h : j ≠ i) : (s.set i v).get j = s.get j :=
  Vector.getElem_set_ne i.isLt j.isLt fun e => h (Fin.ext e.symm)

@[simp] theorem get_xor (a b : HashState) (i : Fin wordCount) : (a.xor b).get i = a.get i ^^^ b.get i := by
  simp [xor]

@[simp] theorem get_zero (i : Fin wordCount) : zero.get i = 0 := by simp [zero]

theorem xor_comm (a b : HashState) : a.xor b = b.xor a := ext_get fun i => by simp [BitVec.xor_comm]

theorem xor_assoc (a b c : HashState) : (a.xor b).xor c = a.xor (b.xor c) := ext_get fun i => by simp [BitVec.xor_assoc]

theorem xor_left_comm (a b c : HashState) : a.xor (b.xor c) = b.xor (a.xor c) := by
  rw [← xor_assoc, xor_comm a b, xor_assoc]

@[simp] theorem xor_self (a : HashState) : a.xor a = zero := ext_get fun i => by simp

@[simp] theorem xor_zero (a : HashState) : a.xor zero = a := ext_get fun i => by simp

@[simp] theorem zero_xor (a : HashState) : zero.xor a = a := ext_get fun i => by simp

/-- XORing the same state twice changes nothing. -/
@[simp] theorem xor_xor_cancel (a b : HashState) : (a.xor b).xor b = a := by simp [xor_assoc]

@[simp] theorem xor_cancel_left (a b : HashState) : a.xor (a.xor b) = b := by simp [← xor_assoc]

end HashState

namespace Machine

/-! ### XOR over a list -/

@[simp] theorem xorAll_nil : xorAll [] = .zero := rfl

@[simp] theorem xorAll_cons (a : HashState) (l : List HashState) : xorAll (a :: l) = a.xor (xorAll l) := rfl

theorem xorAll_append (l m : List HashState) : xorAll (l ++ m) = (xorAll l).xor (xorAll m) := by
  induction l with
  | nil => simp
  | cons a l ih => simp [ih, HashState.xor_assoc]

/-- The XOR of a list does not depend on its order. -/
theorem xorAll_perm {l m : List HashState} (h : l.Perm m) : xorAll l = xorAll m := by
  induction h with
  | nil => rfl
  | cons a _ ih => simp [ih]
  | swap a b l => simp [HashState.xor_left_comm]
  | trans _ _ ih₁ ih₂ => exact ih₁.trans ih₂

/-- The XOR of a list, one word of it. -/
theorem get_xorAll (l : List HashState) (i : Fin wordCount) :
    (xorAll l).get i = (l.map fun s => s.get i).foldr (· ^^^ ·) 0 := by
  induction l with
  | nil => simp
  | cons a l ih => simp [ih]

/-- If every state of a list has the same high half h in word i, the XOR of the list has there h for an odd number of
states and 0 for an even number. -/
theorem xorAll_high {l : List HashState} {i : Fin wordCount} {h : BitVec 64}
    (hl : ∀ s ∈ l, (s.get i).extractLsb' 64 64 = h) :
    ((xorAll l).get i).extractLsb' 64 64 = if l.length % 2 = 0 then 0 else h := by
  induction l with
  | nil => simp
  | cons a l ih =>
    have ha := hl a (by simp)
    have ih := ih fun s hs => hl s (by simp [hs])
    simp only [xorAll_cons, HashState.get_xor, BitVec.extractLsb'_xor, ha, ih, List.length_cons]
    rcases Nat.mod_two_eq_zero_or_one l.length with h2 | h2
    · simp [h2, Nat.add_mod]
    · simp [h2, Nat.add_mod]

/-! ### Rotations, NLT and StateMixer -/

/-- The left rotation is the library's, for every amount the spec defines. -/
theorem rotl_eq_rotateLeft (v : U128) {n : Nat} (h : n ≤ 127) : rotl v n = v.rotateLeft n := by
  unfold rotl BitVec.rotateLeft BitVec.rotateLeftAux
  rw [Nat.mod_eq_of_lt (show n < wordBits from Nat.lt_succ_of_le h)]
  split
  · subst n; simp [BitVec.ushiftRight_eq_zero]
  · rfl

/-- The right rotation is the library's, for every amount the spec defines. -/
theorem rotr_eq_rotateRight (v : U128) {n : Nat} (h : n ≤ 127) : rotr v n = v.rotateRight n := by
  unfold rotr BitVec.rotateRight BitVec.rotateRightAux
  rw [Nat.mod_eq_of_lt (show n < wordBits from Nat.lt_succ_of_le h)]
  split
  · subst n; simp
  · rfl

/-- The rotation amounts of the datapath are at most 39, so none reaches the word's width. -/
theorem rotAmount_le (r : Fin roundCount) (i : Fin wordCount) : rotAmount r i ≤ 39 := by
  have hi : i.val < 4 := i.isLt
  unfold rotAmount rotPeriod rotWordStep; omega

/-- NLT as a number: the wrapped product, reduced. -/
theorem nlt_toNat (prime v : U128) :
    (nlt prime v).toNat = ((v ^^^ rotr v nltRotation) * prime).toNat % nltModulus := by
  have : ((v ^^^ rotr v nltRotation) * prime).toNat % nltModulus < 2 ^ 128 :=
    Nat.lt_of_lt_of_le (Nat.mod_lt _ (by decide)) (by decide)
  simp only [nlt, BitVec.toNat_ofNat]
  exact Nat.mod_eq_of_lt this

/-- NLT depends on its argument only through v ^ rotr(v, 23). -/
theorem nlt_congr {prime v v' : U128} (h : v ^^^ rotr v nltRotation = v' ^^^ rotr v' nltRotation) :
    nlt prime v = nlt prime v' := by
  simp only [nlt, h]

/-- An NLT result fits in the low half of a word. -/
theorem nlt_lt (prime v : U128) : (nlt prime v).toNat < 2 ^ 64 := by
  rw [nlt_toNat]; exact Nat.lt_of_lt_of_le (Nat.mod_lt _ (by decide)) (by decide)

/-- The high half of a word below 2^64 is 0. -/
theorem high_of_lt {v : U128} (h : v.toNat < 2 ^ 64) : v.extractLsb' 64 64 = 0 := by
  apply BitVec.eq_of_toNat_eq
  simp only [BitVec.extractLsb'_toNat, Nat.shiftRight_eq_div_pow, Nat.div_eq_of_lt h]
  rfl

@[simp] theorem nlt_high (prime v : U128) : (nlt prime v).extractLsb' 64 64 = 0 := high_of_lt (nlt_lt prime v)

/-- Step i of StateMixer leaves the other words alone. -/
theorem mixStep_get_ne (prime m : U128) (r : Fin roundCount) (t : HashState) {i j : Fin wordCount} (h : j ≠ i) :
    (mixStep prime m r t i).get j = t.get j := HashState.get_set_ne _ _ h

/-- Word i after step i of StateMixer (R68): its neighbour is read in the state the step starts in. -/
theorem mixStep_get_self (prime m : U128) (r : Fin roundCount) (t : HashState) (i : Fin wordCount) :
    (mixStep prime m r t i).get i =
      nlt prime (rotl ((t.get i ^^^ m) + prime) (rotAmount r i)) ^^^ t.get (i + 1) := HashState.get_set_self _ _ _

/-- Step i of StateMixer gives word i its neighbour's high half. -/
theorem mixStep_high (prime m : U128) (r : Fin roundCount) (t : HashState) (i : Fin wordCount) :
    ((mixStep prime m r t i).get i).extractLsb' 64 64 = (t.get (i + 1)).extractLsb' 64 64 := by
  simp [mixStep_get_self, BitVec.extractLsb'_xor]

/-- StateMixer is its four steps, in order. -/
theorem stateMixer_eq (prime : U128) (s : HashState) (m : U128) (r : Fin roundCount) :
    stateMixer prime s m r =
      mixStep prime m r (mixStep prime m r (mixStep prime m r (mixStep prime m r s 0) 1) 2) 3 := rfl

/-- There are 256 rounds. -/
theorem allRounds_length : allRounds.length = 256 := by simp [allRounds]

/-- As many units as rounds. -/
theorem unitResults_length (p : Params) (order : List (Fin roundCount)) (b : Byte) :
    (unitResults p order b).length = order.length := by simp [unitResults]

/-- UNITS_PER_BYTE units make up one contribution (R7). -/
theorem unitResults_allRounds_length (p : Params) (b : Byte) : (unitResults p allRounds b).length = unitsPerByte := by
  rw [unitResults_length, allRounds_length]

/-! ### Accumulation -/

@[simp] theorem accumulate_nil (p : Params) : accumulate p [] = p.iv := by simp [accumulate]

/-- One more byte in front XORs its contribution. -/
theorem accumulate_cons (p : Params) (b : Byte) (bytes : List Byte) :
    accumulate p (b :: bytes) = (accumulate p bytes).xor (contribution p b) := by
  simp only [accumulate, List.map_cons, xorAll_cons]
  rw [HashState.xor_assoc, HashState.xor_comm (contribution p b)]

/-- A byte of the digest. -/
theorem finalize_getElem (s : HashState) (n : Nat) (h : n < digestBytes) :
    (finalize s)[n]'h =
      byteOfU128 (s.get ⟨n / keepBytes, Nat.div_lt_of_lt_mul h⟩) (n % keepBytes) := by
  simp [finalize]

end Machine

end Sys2Proof
end

