-- ==== Sys2Proof/Laws/Encoding.lean ====
section
/-! SUPPORT. The fields of a command word, and the word of each command. -/

namespace Sys2Proof

/-- Splitting a word into its bytes and putting it together again changes nothing. -/
theorem decodeBytes_bytesOfWord (w : Word32) : decodeBytes (bytesOfWord w) = decode w := by
  have h : wordOfBytes (w.extractLsb' 0 8) (w.extractLsb' 8 8) (w.extractLsb' 16 8) (w.extractLsb' 24 8) = w := by
    apply BitVec.eq_of_getLsbD_eq
    intro i hi
    simp only [wordOfBytes, BitVec.getLsbD_append, BitVec.getLsbD_extractLsb']
    rcases Nat.lt_or_ge i 8 with h1 | h1
    · simp [h1]
    rcases Nat.lt_or_ge i 16 with h2 | h2
    · have : i - 8 < 8 := by omega
      simp [this, Nat.not_lt.2 h1, show 8 + (i - 8) = i by omega]
    rcases Nat.lt_or_ge i 24 with h3 | h3
    · have a : ¬ i - 8 < 8 := by omega
      have b : i - 8 - 8 < 8 := by omega
      simp [a, b, Nat.not_lt.2 h1, show 16 + (i - 8 - 8) = i by omega]
    · have a : ¬ i - 8 < 8 := by omega
      have b : ¬ i - 8 - 8 < 8 := by omega
      have c : i - 8 - 8 - 8 < 8 := by omega
      simp [a, b, c, Nat.not_lt.2 h1, show 24 + (i - 8 - 8 - 8) = i by omega]
  simp only [decodeBytes, bytesOfWord, h]

@[simp] theorem opField_encode (i : Instr) : opField (encode i) = i.opcode := by
  cases i with
  | absorb d => revert d; decide
  | _ => rfl

@[simp] theorem dataField_encode (i : Instr) : dataField (encode i) = i.data := by
  cases i with
  | absorb d => revert d; decide
  | _ => rfl

@[simp] theorem rsvdField_encode (i : Instr) : rsvdField (encode i) = 0 := by
  cases i with
  | absorb d => revert d; decide
  | _ => rfl

/-- The masked word of the table determines RSVD and OP, and the other way round. -/
theorem tableMask_eq_iff (w : Word32) (op : Byte) :
    w &&& tableMask = op.setWidth 32 ↔ rsvdField w = 0 ∧ opField w = op := by
  constructor
  · intro h
    constructor
    · apply BitVec.eq_of_getLsbD_eq
      intro i hi
      have := congrArg (·.getLsbD (16 + i)) h
      have hm : tableMask.getLsbD (16 + i) = true := by
        have : ∀ i : Fin 16, tableMask.getLsbD (16 + i.val) = true := by decide
        exact this ⟨i, hi⟩
      simp only [BitVec.getLsbD_and, hm, Bool.and_true, BitVec.getLsbD_setWidth] at this
      simp [rsvdField, hi, this, BitVec.getLsbD_of_ge op (16 + i) (by omega)]
    · apply BitVec.eq_of_getLsbD_eq
      intro i hi
      have := congrArg (·.getLsbD i) h
      have hm : tableMask.getLsbD i = true := by
        have : ∀ i : Fin 8, tableMask.getLsbD i.val = true := by decide
        exact this ⟨i, hi⟩
      simp only [BitVec.getLsbD_and, hm, Bool.and_true, BitVec.getLsbD_setWidth] at this
      simp only [show i < 32 by omega, decide_true, Bool.true_and] at this
      simp only [opField, BitVec.getLsbD_extractLsb', hi, decide_true, Bool.true_and, Nat.zero_add, this]
  · rintro ⟨hr, ho⟩
    apply BitVec.eq_of_getLsbD_eq
    intro i hi
    simp only [BitVec.getLsbD_and, BitVec.getLsbD_setWidth]
    rcases Nat.lt_or_ge i 8 with h1 | h1
    · have hm : tableMask.getLsbD i = true := by
        have : ∀ i : Fin 8, tableMask.getLsbD i.val = true := by decide
        exact this ⟨i, h1⟩
      have := congrArg (·.getLsbD i) ho
      simp only [opField, BitVec.getLsbD_extractLsb', h1, decide_true, Bool.true_and, Nat.zero_add] at this
      simp only [hm, hi, decide_true, Bool.true_and, Bool.and_true, this]
    · rw [BitVec.getLsbD_of_ge op i h1]
      rcases Nat.lt_or_ge i 16 with h2 | h2
      · have hm : tableMask.getLsbD i = false := by
          have : ∀ i : Fin 8, tableMask.getLsbD (8 + i.val) = false := by decide
          have := this ⟨i - 8, by omega⟩
          rwa [show 8 + (i - 8) = i by omega] at this
        simp [hm]
      · have := congrArg (·.getLsbD (i - 16)) hr
        simp only [rsvdField, BitVec.getLsbD_extractLsb', show i - 16 < 16 by omega,
          show 16 + (i - 16) = i by omega] at this
        simp at this
        simp [this]

/-- The decoder by its fields. -/
theorem decode_of_fields {w : Word32} {op : Byte} (hr : rsvdField w = 0) (ho : opField w = op) :
    decode w = match op.toNat with
      | 0x00 => .command .nop
      | 0x01 => .command .init
      | 0x02 => .command (.absorb (dataField w))
      | 0x03 => .command .final
      | 0x04 => .command .clrerr
      | _ => .illegal .unassignedOpcode := by
  subst ho; exact if_neg (fun h => h hr)

/-- A field equal to a small number as a number. -/
theorem opField_eq_of_toNat {w : Word32} {n : Nat} (h : (opField w).toNat = n) : opField w = BitVec.ofNat 8 n := by
  apply BitVec.eq_of_toNat_eq; rw [← h]; simp

/-- Everything the decoder can answer: ILLEGAL for a reserved bit, and with RSVD = 0 what OP says. -/
theorem decode_cases (w : Word32) :
    (rsvdField w ≠ 0 ∧ decode w = .illegal .reservedBitsSet) ∨
    (rsvdField w = 0 ∧
      ((opField w = 0 ∧ decode w = .command .nop) ∨
       (opField w = 1 ∧ decode w = .command .init) ∨
       (opField w = 2 ∧ decode w = .command (.absorb (dataField w))) ∨
       (opField w = 3 ∧ decode w = .command .final) ∨
       (opField w = 4 ∧ decode w = .command .clrerr) ∨
       (5 ≤ (opField w).toNat ∧ decode w = .illegal .unassignedOpcode))) := by
  by_cases hr : rsvdField w = 0
  · refine .inr ⟨hr, ?_⟩
    rw [decode_of_fields hr rfl]
    split
    · exact .inl ⟨opField_eq_of_toNat ‹_›, rfl⟩
    · exact .inr (.inl ⟨opField_eq_of_toNat ‹_›, rfl⟩)
    · exact .inr (.inr (.inl ⟨opField_eq_of_toNat ‹_›, rfl⟩))
    · exact .inr (.inr (.inr (.inl ⟨opField_eq_of_toNat ‹_›, rfl⟩)))
    · exact .inr (.inr (.inr (.inr (.inl ⟨opField_eq_of_toNat ‹_›, rfl⟩))))
    · next h0 h1 h2 h3 h4 =>
      refine .inr (.inr (.inr (.inr (.inr ⟨?_, rfl⟩))))
      by_contra h
      have : (opField w).toNat < 5 := by omega
      generalize (opField w).toNat = n at *
      interval_cases n <;> simp_all
  · exact .inl ⟨hr, by rw [decode, if_pos hr]⟩

end Sys2Proof
end

