-- ==== Sys2Proof/Laws/PerInstr.lean ====
section
/-! SUPPORT. One fact of every command's encoding, per constructor: its word stands in its row of the table, that is,
masked with 0xFFFF00FF it is the row's match word (30_encoding.md R51), and its DATA byte is the one R58 writes. -/

namespace Sys2Proof.Laws.InTable

/-- The word of a command matches the command's row of spec/opcode_table.json. -/
def Statement (i : Instr) : Prop := encode i &&& tableMask = i.matchWord

theorem nop : Statement .nop := by unfold Statement; decide

theorem init : Statement .init := by unfold Statement; decide

theorem absorb (d : Byte) : Statement (.absorb d) := by unfold Statement; revert d; decide

theorem final : Statement .final := by unfold Statement; decide

theorem clrerr : Statement .clrerr := by unfold Statement; decide

end Sys2Proof.Laws.InTable
end

