-- ==== Sys2Proof/Tests/Slice0.lean ====
section
/-! SUPPORT. The model's own tests. Expected values are those of spec/95_test_vectors.md (the test's docstring names
the vector) or of the rules' own examples; TP0 and TP1 are its test parameter sets, neither of them the device's. The
last part holds a witness for each statement that has hypotheses. -/

namespace Sys2Proof.Tests

open Sys2Proof Sys2Proof.Machine

/-! ### Well-formedness, each check with a term it refuses -/

/-- R58: a byte operand of 256 is an assembler error. -/
theorem test_absorb_operand_refused : AsmLine.wf (.absorb 256) = false ∧ AsmLine.wf (.absorb 255) = true := by decide

/-- R58: a `.word` operand of 33 bits is refused. -/
theorem test_word_operand_refused : AsmLine.wf (.word (2 ^ 32)) = false ∧ AsmLine.wf (.word 0xFFFFFFFF) = true := by
  decide

/-- R37, T-PROT-12: a 16-bit read at 0x04, a 32-bit read at 0x06 and an 8-bit write are no accesses of the bus. -/
theorem test_narrow_and_misaligned_refused :
    hostOpLegal (.read .w16 0x04) = false ∧ hostOpLegal (.read .w32 0x06) = false ∧
    hostOpLegal (.write .w8 0x08 0) = false ∧ hostOpLegal (.write .w64 0x08 0) = false ∧
    hostOpLegal (.read .w32 0xFC) = true := by decide

/-! ### Decoding: words written out from R50, R51 (T-DEC-1 to T-DEC-13) -/

theorem test_decode_nop : decode 0b00000000000000000000000000000000 = .command .nop ∧
    decode 0x0000FF00 = .command .nop := by decide

theorem test_decode_init : decode 0b00000000000000000000000000000001 = .command .init ∧
    decode 0x00004201 = .command .init := by decide

theorem test_decode_absorb : decode 0b00000000000000000110000100000010 = .command (.absorb 0x61) ∧
    decode 0x00000002 = .command (.absorb 0x00) := by decide

theorem test_decode_final : decode 0b00000000000000000000000000000011 = .command .final := by decide

theorem test_decode_clrerr : decode 0b00000000000000000000000000000100 = .command .clrerr := by decide

theorem test_decode_illegal :
    decode 0x00000005 = .illegal .unassignedOpcode ∧ decode 0x000000FF = .illegal .unassignedOpcode ∧
    decode 0x00010002 = .illegal .reservedBitsSet ∧ decode 0x80000000 = .illegal .reservedBitsSet ∧
    decode 0xFFFFFFFF = .illegal .reservedBitsSet ∧ decodeBytes [0x02, 0x61] = .illegal .notOneWord := by decide

/-- The bytes of ABSORB 0x61, lowest offset first (R38). -/
theorem test_decode_bytes_little_endian : decodeBytes [0x02, 0x61, 0x00, 0x00] = .command (.absorb 0x61) ∧
    decodeTableWord 32 0x00006102 = some (.absorb 0x61) ∧ decodeTableWord 32 0x00010002 = none := by decide

/-! ### Datapath vectors -/

/-- TP0 of spec/95_test_vectors.md. -/
def tp0 : Params := ⟨1, ⟨#v[0, 0, 0, 0]⟩⟩

/-- TP1 of spec/95_test_vectors.md. -/
def tp1 : Params where
  prime := 0x9E3779B97F4A7C15F39CC0605CEDC835
  iv := ⟨#v[0x0123456789ABCDEFFEDCBA9876543210, 0x0F1E2D3C4B5A69788796A5B4C3D2E1F0,
    0x243F6A8885A308D313198A2E03707344, 0xA4093822299F31D0082EFA98EC4E6C89]⟩

/-- T-ROT-1 to T-ROT-4. -/
theorem test_rotations :
    rotr 0x1 23 = 0x00000200000000000000000000000000 ∧
    rotr 0x80000000000000000000000000000001 23 = 0x00000300000000000000000000000000 ∧
    rotl 0x80000000000000000000000000000000 1 = 0x1 ∧ rotl 0x1 39 = 0x8000000000 := by decide

/-- T-NLT-6, T-NLT-10, T-NLT-11, T-NLT-14: the last two also tell the wrapped product from the exact one. -/
theorem test_nlt :
    nlt 1 0xFF = 0x0001FE00000000FF ∧ nlt 1 0x0123456789ABCDEFFEDCBA9876543210 = 0x528ECACB9E4205F9 ∧
    nlt tp1.prime 0x1 = 0x6D64A419DC38444B ∧
    nlt tp1.prime 0x0123456789ABCDEFFEDCBA9876543210 = 0xD9631BD68CD81E69 := by decide

/-- T-DS-3, T-DS-4, T-DS-8, T-MB-2, T-MB-3. -/
theorem test_salt_and_mixed_byte :
    dynamicSalt 1 tp0.iv 255 = 0x100 ∧ dynamicSalt tp1.prime tp1.iv 0 = 0x9E3779B97F4A7C15F39CC0605CEDC825 ∧
    dynamicSalt tp1.prime tp1.iv 255 = 0x9E3779B97F4A7C15F39CC0605CEDC9BD ∧
    mixedByte 1 tp0.iv 255 0xFF = 0x1FF ∧
    mixedByte tp1.prime tp1.iv 0 0x61 = 0x9E3779B97F4A7C15F39CC0605CEDC886 := by decide

/-- T-MIX-4 and T-MIX-7: their word 3 tells the current neighbour from the rejected reading (C1). -/
theorem test_state_mixer :
    stateMixer 1 ⟨#v[1, 2, 3, 4]⟩ 0 5 =
      ⟨#v[0x0000800000000042, 0x00C0000000006003, 0x0000000000800005, 0x00008000A0000102]⟩ ∧
    stateMixer tp1.prime tp1.iv 1 17 =
      ⟨#v[0x0F1E2D3C4B5A6978DC60BE1CA70A9D49, 0x243F6A8885A308D3315A93E864B8A810,
        0xA4093822299F31D0ED772B038B7B0965, 0x0F1E2D3C4B5A6978EF7EDA3E68B2C4F1]⟩ := by decide

/-- T-UNIT-5 and T-UNIT-9. -/
theorem test_unit :
    unitComputation 1 tp0.iv 17 0x80 =
      ⟨#v[0x00024C0000000126, 0x024C000000012600, 0x4C00000001260002, 0x00024C012600036A]⟩ ∧
    unitComputation tp1.prime tp1.iv 255 0xFF =
      ⟨#v[0x0F1E2D3C4B5A69783852E98C87AB58B9, 0x243F6A8885A308D35BFE49D2C333D6FD,
        0xA4093822299F31D0889669F91DAFB688, 0x0F1E2D3C4B5A697850D98E724B8D6DE5]⟩ := by decide

/-- T-C-5. -/
theorem test_contribution :
    contribution tp1 0x61 =
      ⟨#v[0x42A3FBEF2ED366AF, 0x4ED74BE4F1745CA0, 0x5D3A694DEC4241FE, 0x8B004DF33685E012]⟩ := by decide +kernel

/-- R85's example, and T-DIG-1: the digest of the empty message at TP1. -/
theorem test_finalize :
    (finalize tp1.iv).toList =
      [0x10, 0x32, 0x54, 0x76, 0x98, 0xBA, 0xDC, 0xFE, 0xF0, 0xE1, 0xD2, 0xC3, 0xB4, 0xA5, 0x96, 0x87,
       0x44, 0x73, 0x70, 0x03, 0x2E, 0x8A, 0x19, 0x13, 0x89, 0x6C, 0x4E, 0xEC, 0x98, 0xFA, 0x2E, 0x08] := by decide

/-- R60, R95: the bytes of HASH "abc", "S1", "P1" are 50 31 61 62 63 53 31 (L1-1), and a two-byte UTF-8 letter. -/
theorem test_combined_input :
    combinedInput "abc" "S1" "P1" = [0x50, 0x31, 0x61, 0x62, 0x63, 0x53, 0x31] ∧ utf8 "é" = [0xC3, 0xA9] := by decide

/-! ### The machine, one step each -/

/-- A state at work: every field off its reset value. -/
def quiet : State where
  acc := ⟨#v[1, 2, 3, 4]⟩
  digest := Vector.replicate digestBytes 7
  len := 3
  errIllegal := true
  errOverrun := true
  pending := none
  phase := .running
  program := []
  replies := [9]
  turns := [.host, .core]
  draws := 5

/-- The quiet state with one host operation to issue. -/
def issuing (op : HostOp) : State := { quiet with program := [op] }

/-- The same with an ABSORB pending and the host to move. -/
def busyIssuing (op : HostOp) : State := { quiet with program := [op], pending := some (.absorb 0x61) }

/-- A command pending and the core to move. -/
def completing (c : Pending) : State := { quiet with pending := some c, turns := [.core] }

/-- A field of the next state, or none where the step stops. -/
def after {α : Type} (s : State) (f : State → α) : Option α :=
  match step s with
  | .next t => some (f t)
  | .fault _ => none
  | .refused _ => none

/-- T-PROT-8: NOP changes neither flag and leaves BUSY at 0. -/
theorem test_nop : after (issuing (cmd .nop)) (fun t => (t.statusWord, t.len, t.acc)) =
    some (0x6, 3, ⟨#v[1, 2, 3, 4]⟩) := by decide

/-- T-PROT-7: STATUS 0x6, CLRERR, STATUS 0x0. -/
theorem test_clrerr : after (issuing (cmd .clrerr)) (fun t => (t.statusWord, t.len)) = some (0x0, 3) := by decide

/-- T-PROT-6: CLRERR while busy is dropped, and ERR_OVERRUN is 1. -/
theorem test_clrerr_busy : after (busyIssuing (cmd .clrerr)) (fun t => (t.statusWord, t.pending)) =
    some (0x7, some (.absorb 0x61)) := by decide

/-- T-DEC-3: INIT is accepted and BUSY is 1; LEN is not yet 0. -/
theorem test_init_accepted : after (issuing (cmd .init)) (fun t => (t.pending, t.busy, t.len)) =
    some (some .init, true, 3) := by decide

/-- R76: INIT completes with LEN = 0, and DIGEST and the flags keep their values. -/
theorem test_init_completes : after (completing .init) (fun t => (t.len, t.digest[31], t.statusWord)) =
    some (0, 7, 0x6) := by decide

/-- T-PROT-11: LEN wraps from 0xFFFFFFFF to 0. -/
theorem test_absorb_len_wraps :
    after { completing (.absorb 0) with len := 0xFFFFFFFF } (fun t => (t.len, t.pending)) = some (0, none) := by decide

/-- T-DIG-2 at TP1: ABSORB 0x61 from the IV, then FINAL; the first and last digest words and LEN. -/
theorem test_absorb_final_tp1 :
    let s := ((quiet.loadIv tp1).mergeByte tp1 0x61).produceDigest tp1
    s.registerValue (.digestW 0) = 0x588754BF ∧ s.registerValue (.digestW 7) = 0x832EB76B ∧ s.len = 0 ∧
      s.acc = tp1.iv := by decide +kernel

/-- R86: FINAL takes the digest from ACC before it: byte 8 is the low byte of ACC[1]. -/
theorem test_final_completes : after (completing .final) (fun t => (t.digest[0], t.digest[8], t.digest[9], t.len)) =
    some (1, 2, 0, 0) := by decide

/-- T-DEC-9, T-DEC-11: an illegal word sets ERR_ILLEGAL only. -/
theorem test_illegal_word :
    after { issuing (.write .w32 0x08 0x00010002) with errIllegal := false, errOverrun := false }
      (fun t => (t.statusWord, t.len)) = some (0x2, 3) := by decide

/-- T-PROT-5: an illegal word while busy is an overrun only. -/
theorem test_illegal_word_busy :
    after { busyIssuing (.write .w32 0x08 0x00000005) with errIllegal := false, errOverrun := false }
      (fun t => t.statusWord) = some 0x5 := by decide

/-- T-PROT-9: writes of LEN, STATUS, DIGEST_W0 and ACC_0_0 change nothing. -/
theorem test_writes_ignored :
    after (issuing (.write .w32 0x0C 0x12345678)) id = some quiet ∧ after (issuing (.write .w32 0x04 0x7)) id = some quiet ∧
    after (issuing (.write .w32 0x20 1)) id = some quiet ∧ after (issuing (.write .w32 0x40 1)) id = some quiet := by
  decide

/-- T-PROT-1, T-PROT-2: ID and the zero reads. -/
theorem test_reads :
    after (issuing (.read .w32 0x00)) (·.replies) = some [9, 0x4D504843] ∧
    after (issuing (.read .w32 0x08)) (·.replies) = some [9, 0] ∧
    after (issuing (.read .w32 0x10)) (·.replies) = some [9, 0] ∧
    after (issuing (.read .w32 0x80)) (·.replies) = some [9, 0] := by decide

/-- T-PROT-3: ACC_0_0 to ACC_0_3 at TP1. -/
theorem test_acc_slices :
    (List.finRange 4).map (fun k => { quiet with acc := tp1.iv }.registerValue (.accSlice 0 k)) =
      [0x76543210, 0xFEDCBA98, 0x89ABCDEF, 0x01234567] := by decide

/-- T-PROT-10: a read of ACC_0_0 while busy returns the free value of this draw. -/
theorem test_busy_read : after (busyIssuing (readReg (.accSlice 0 0))) (fun t => (t.replies, t.draws)) =
    some ([9, Config.freeRead 5], 6) := by rfl

/-- T-PROT-12: refused, whatever the state. -/
theorem test_violation : step (busyIssuing (.read .w16 0x04)) = .refused .hostProtocolViolation ∧
    step (issuing (.read .w32 0x06)) = .refused .hostProtocolViolation := by constructor <;> rfl

/-- T-PROT-13: reset with an ABSORB pending. -/
theorem test_reset_while_busy : after (busyIssuing .reset) (fun t => (t.pending, t.len, t.digest[0], t.statusWord)) =
    some (none, 0, 0, 0) := by decide

/-- The very next step runs the placed command, from reset (log 10). -/
theorem test_fetch_word : after (State.reset.withFetchWord 32 0x00006102) (fun t => (t.len, t.pending)) =
    some (1, none) := by decide

/-! ### Witnesses: for each statement with hypotheses, a state and operands that meet them -/

theorem witness_RotationsMoveBits : (1 ≤ 127 ∧ 127 ≤ 127) ∧ (0 ≤ 127 ∧ 127 < 128) := by decide

theorem witness_NltProperties_congruent : ((0x1 ^^^ rotr 0x1 23) * 1 : U128).toNat % (2 ^ 64 - 1) =
    ((0x10000000000000000 ^^^ rotr 0x10000000000000000 23) * 1 : U128).toNat % (2 ^ 64 - 1) := by decide

theorem witness_UnitOrderIsNotObservable : (List.finRange 256).reverse.Perm (List.finRange 256) :=
  List.reverse_perm _

theorem witness_AccumulateSeesOnlyParity : [0x61, 0x62].Perm [(0x62 : Byte), 0x61] := List.Perm.swap _ _ _

theorem witness_FinalizeTakesLowHalves :
    ∀ i : Fin 4, ((⟨#v[1, 2, 3, 4]⟩ : HashState).get i).extractLsb' 0 64 =
      ((⟨#v[0x10000000000000001, 2, 3, 4]⟩ : HashState).get i).extractLsb' 0 64 := by decide

theorem witness_EvenMessagesHashLikeTheEmptyOne : ∀ b : Byte, [0x61, 0x62, 0x61, 0x62].count b % 2 = 0 := by decide

theorem witness_OpcodeMap_words :
    (0x0000FF00 : Word32) &&& 0xFFFF00FF = 0x00000000 ∧ (0x0000FF01 : Word32) &&& 0xFFFF00FF = 0x00000001 ∧
    (0x0000FF02 : Word32) &&& 0xFFFF00FF = 0x00000002 ∧ (0x0000FF03 : Word32) &&& 0xFFFF00FF = 0x00000003 ∧
    (0x0000FF04 : Word32) &&& 0xFFFF00FF = 0x00000004 := by decide

theorem witness_DataField : decode 0x0000FF01 = .command .init ∧ (∀ e, Instr.init ≠ .absorb e) ∧
    decode 0x00006102 = .command (.absorb 0x61) ∧ decode 0x00000005 = .illegal .unassignedOpcode :=
  ⟨by decide, nofun, by decide, by decide⟩

theorem witness_AssemblerLines : 255 < 256 ∧ 0xFFFFFFFF < 2 ^ 32 ∧ 256 ≤ 256 := by decide

/-- For the acceptance clauses of InitLoadsIv, AbsorbMergesAllUnits, FinalProducesDigest, NopChangesNothing and
ClrerrClearsBothFlags, and for CmdWriteThenCompletionRunsTheCommand: any word, idle. -/
theorem witness_cmd_write_idle (w : Word32) : HostIssues (.write .w32 0x08 w) [] (issuing (.write .w32 0x08 w)) ∧
    (issuing (.write .w32 0x08 w)).phase = .running ∧ (issuing (.write .w32 0x08 w)).busy = false := by
  refine ⟨⟨rfl, rfl⟩, rfl, rfl⟩

/-- For the overrun clauses of the same statements and OverrunDropsTheWord: any word, busy. -/
theorem witness_cmd_write_busy (w : Word32) :
    HostIssues (.write .w32 0x08 w) [] (busyIssuing (.write .w32 0x08 w)) ∧
    (busyIssuing (.write .w32 0x08 w)).phase = .running ∧ (busyIssuing (.write .w32 0x08 w)).busy = true := by
  refine ⟨⟨rfl, rfl⟩, rfl, rfl⟩

/-- For the completion clauses of InitLoadsIv, AbsorbMergesAllUnits and FinalProducesDigest, and for
CoreCompletePerformsPending. -/
theorem witness_core_completes (c : Pending) : CoreCompletes c (completing c) := ⟨rfl, rfl⟩

theorem witness_CommandFrames : exec .nop quiet = .next quiet := rfl

theorem witness_IllegalCommandSetsOnlyItsFlag :
    ((0x00010002 : Word32).extractLsb' 16 16 ≠ 0) ∧
    ((0x00000005 : Word32).extractLsb' 16 16 = 0 ∧ 0x05 ≤ ((0x00000005 : Word32).extractLsb' 0 8).toNat) := by decide

theorem witness_StepRunsTheDecodedCommand :
    decodeTableWord 32 0x00006102 = some (.absorb 0x61) ∧ (Instr.absorb 0x61).wf = true ∧
    decodeTableWord 32 0x00000004 = some .clrerr := by decide

theorem witness_CmdWriteThenCompletion : decode 0x00000003 = .command .final ∧ pendingOf .final = some .final ∧
    decode 0x00000004 = .command .clrerr ∧ pendingOf .clrerr = none ∧ CoreCompletes .final (completing .final) := by
  decide

theorem witness_RacingWriteHasBothOutcomes :
    let s := { quiet with program := [cmd (.absorb 0x61), cmd (.absorb 0x62)] }
    s.phase = .running ∧ s.pending = none ∧ s.program = cmd (.absorb 0x61) :: cmd (.absorb 0x62) :: [] := by decide

theorem witness_WaitPollsUntilIdle :
    HostIssues .wait [] (issuing .wait) ∧ (issuing .wait).busy = false ∧
    HostIssues .wait [] (busyIssuing .wait) ∧ (busyIssuing .wait).busy = true := by decide

theorem witness_PendingCommandCompletes :
    InDomain (busyIssuing .wait) ∧ (busyIssuing .wait).phase = .running ∧ (busyIssuing .wait).pending ≠ none :=
  ⟨⟨nofun, by decide⟩, rfl, nofun⟩

theorem witness_HashSequenceComputesAdvancedHash :
    let s := { quiet with program := hashSequence "abc" "S1" "P1" }
    s.phase = .running ∧ s.pending = none ∧ s.program = hashSequence "abc" "S1" "P1" := ⟨rfl, rfl, rfl⟩

/-- For both clauses of HostReadReturns: a read and a write at any offset; idle and busy. -/
theorem witness_HostReadReturns (off : Byte) (v : Word32) :
    HostIssues (.read .w32 off) [] (issuing (.read .w32 off)) ∧ (issuing (.read .w32 off)).phase = .running ∧
    (issuing (.read .w32 off)).busy = false ∧
    HostIssues (.read .w32 off) [] (busyIssuing (.read .w32 off)) ∧ (busyIssuing (.read .w32 off)).busy = true ∧
    HostIssues (.write .w32 off v) [] (issuing (.write .w32 off v)) := by
  refine ⟨⟨rfl, rfl⟩, rfl, rfl, ⟨rfl, rfl⟩, rfl, ⟨rfl, rfl⟩⟩

/-- The clauses of HostReadReturns at the ends of their ranges, each a different register. -/
theorem witness_HostReadReturns_ranges :
    registerAt 0x0C = .len ∧ registerAt 0x10 = .reserved 0 ∧ registerAt 0x1C = .reserved 3 ∧
    registerAt 0x20 = .digestW 0 ∧ registerAt 0x3C = .digestW 7 ∧ registerAt 0x40 = .accSlice 0 0 ∧
    registerAt 0x7C = .accSlice 3 3 ∧ registerAt 0x80 = .unmapped 0 ∧ registerAt 0xFC = .unmapped 31 := by decide

theorem witness_OnlyCmdWrites_unchanged :
    HostIssues (readReg .status) [] (issuing (readReg .status)) ∧
    step (issuing (readReg .status)) = .next { quiet with replies := [9, 0x6] } ∧
    HostIssues (.write .w32 0x0C 1) [] (issuing (.write .w32 0x0C 1)) ∧
    step (issuing (.write .w32 0x0C 1)) = .next quiet := by
  refine ⟨⟨rfl, rfl⟩, rfl, ⟨rfl, rfl⟩, rfl⟩

theorem witness_OnlyCmdWrites_twice :
    let s := { quiet with pending := some .final, turns := [.host, .host], program := [readReg .id, readReg .id] }
    s.phase = .running ∧ s.turns.head? = some .host ∧ s.turns.tail.head? = some .host ∧
    s.program = [readReg .id, readReg .id] ∧ Register.id.isResult = false := by decide

theorem witness_ProtocolViolationsAreRefused :
    (AccessWidth.w16 ≠ .w32) ∧ HostIssues (.read .w16 0x04) [] (issuing (.read .w16 0x04)) ∧
    ((0xFF : Byte).toNat % 4 ≠ 0) ∧ HostIssues (.write .w32 0xFF 0) [] (issuing (.write .w32 0xFF 0)) := by decide

theorem witness_SystemAddress : Config.baseAddr + 256 ≤ Config.baseAddr + 256 ∧
    windowOffset (systemAddress 0xFF) = some 0xFF := by
  refine ⟨Nat.le_refl _, ?_⟩
  simp [windowOffset, systemAddress]

theorem witness_ResetStepSetsEverything :
    HostIssues .reset [] (busyIssuing .reset) ∧ HostIssues .holdReset [] (busyIssuing .holdReset) := by decide

/-- A state held in reset. -/
def heldIssuing (op : HostOp) : State := { issuing op with phase := .held }

theorem witness_HeldResetIgnoresAccesses :
    (heldIssuing .reset).phase = .held ∧ HostIssues (.read .w32 0xFC) [] (heldIssuing (.read .w32 0xFC)) ∧
    HostIssues (.write .w32 0x08 1) [] (heldIssuing (.write .w32 0x08 1)) ∧
    HostIssues .releaseReset [] (heldIssuing .releaseReset) := by decide

theorem witness_NothingButResetBeforeTheFirstReset :
    let s := { issuing .wait with phase := .unknown }
    s.phase = .unknown ∧ HostIssues .wait [] s := by decide

/-- For LatencyIsDataIndependent: two busy states with different ACC, DIGEST, replies and DATA bytes, the host having
the second of two ABSORB writes to issue; and one step of the first answers a next state. -/
theorem witness_LatencyIsDataIndependent :
    let s := busyIssuing (cmd (.absorb 1))
    let s' := { busyIssuing (cmd (.absorb 2)) with
      acc := .zero, digest := Vector.replicate digestBytes 0, replies := [8], pending := some (.absorb 0x62) }
    DifferInDataOnly s s' ∧ ∃ t, run 1 s = .next t ∧ t.busy = true := by
  refine ⟨⟨rfl, rfl, rfl, .inr ⟨_, _, rfl, rfl⟩, rfl, .cons (.inr ⟨_, _, rfl, rfl, by decide⟩) .nil, rfl, rfl, rfl⟩, _,
    rfl, rfl⟩

theorem witness_HighHalvesKeptByEveryStep : HighHalvesOfIv State.reset ∧ step State.reset = .next State.reset :=
  ⟨fun _ => rfl, rfl⟩

theorem witness_InDomainRunsNeverStop : InDomain (issuing .wait) := ⟨nofun, by decide⟩

/-- For AccWriters, DigestWriters and LenWriters: a FINAL that changes DIGEST, an ABSORB and a FINAL that change LEN. -/
theorem witness_writers :
    after (completing .final) (fun t => decide (t.digest ≠ (completing .final).digest)) = some true ∧
    after (completing (.absorb 0)) (fun t => decide (t.len ≠ (completing (.absorb 0)).len)) = some true ∧
    after (completing .final) (fun t => decide (t.len ≠ (completing .final).len)) = some true := by decide

/-- For AccWriters: whatever the IV is, an INIT changes ACC from one of two states. -/
theorem witness_AccWriters :
    ∃ s t, step s = .next t ∧ t.acc ≠ s.acc := by
  by_cases h : Config.iv = ⟨#v[1, 2, 3, 4]⟩
  · exact ⟨{ completing .init with acc := ⟨#v[0, 0, 0, 0]⟩ }, _, rfl, by
      show Config.iv ≠ _; rw [h]; decide⟩
  · exact ⟨completing .init, _, rfl, h⟩

/-- For ErrIllegalIsSticky and ErrOverrunIsSticky: each flag set by a step, and cleared by one. -/
theorem witness_sticky_flags :
    after { issuing (.write .w32 0x08 0x05) with errIllegal := false } (·.errIllegal) = some true ∧
    after (issuing (cmd .clrerr)) (fun t => (t.errIllegal, t.errOverrun)) = some (false, false) ∧
    after { busyIssuing (cmd .nop) with errOverrun := false } (·.errOverrun) = some true ∧
    after (issuing .reset) (fun t => (t.errIllegal, t.errOverrun)) = some (false, false) := by decide

/-- For BusyFollowsAcceptanceAndCompletion: BUSY set, cleared, and kept by a step. -/
theorem witness_busy :
    (issuing (cmd .final)).busy = false ∧ after (issuing (cmd .final)) (·.busy) = some true ∧
    (completing .final).busy = true ∧ after (completing .final) (·.busy) = some false ∧
    after (busyIssuing (cmd .init)) (·.busy) = some true := by decide

end Sys2Proof.Tests
end

/-! Proofs for 10_state.md: what each command's own effect leaves alone, the fields of STATUS, the state after reset,
and which steps may write ACC, DIGEST, LEN, the error flags and PENDING. -/

namespace Sys2Proof.Machine

/-! ### A command's own effect -/

@[simp] theorem exec_nop (s : State) : exec .nop s = .next s := rfl
@[simp] theorem exec_init (s : State) : exec .init s = .next (s.loadIv Config.params) := rfl
@[simp] theorem exec_absorb (d : Byte) (s : State) : exec (.absorb d) s = .next (s.mergeByte Config.params d) := rfl
@[simp] theorem exec_final (s : State) : exec .final s = .next (s.produceDigest Config.params) := rfl
@[simp] theorem exec_clrerr (s : State) : exec .clrerr s = .next s.clearErrors := rfl

/-- Everything a command's own effect can do. -/
theorem exec_cases {i : Instr} {s t : State} (h : exec i s = .next t) :
    (i = .nop ∧ t = s) ∨
    (i = .init ∧ t = s.loadIv Config.params) ∨
    (∃ d, i = .absorb d ∧ t = s.mergeByte Config.params d) ∨
    (i = .final ∧ t = s.produceDigest Config.params) ∨
    (i = .clrerr ∧ t = s.clearErrors) := by
  cases i <;> simpa [eq_comm] using h

/-- Settles O22, by the five effects and the frame of each named update. -/
theorem commandFrames : Obligations.CommandFrames := by
  intro i s t h
  rcases exec_cases h with ⟨rfl, rfl⟩ | ⟨rfl, rfl⟩ | ⟨d, rfl, rfl⟩ | ⟨rfl, rfl⟩ | ⟨rfl, rfl⟩ <;> simp

/-- Settles O27: the five effects commute with a change of LEN, which only INIT, ABSORB and FINAL overwrite. -/
theorem noCommandDependsOnLen : Obligations.NoCommandDependsOnLen := by
  intro i s n
  cases i with
  | nop => exact ⟨_, _, exec_nop s, exec_nop _, rfl⟩
  | init => exact ⟨_, _, exec_init s, exec_init _, rfl⟩
  | absorb d => exact ⟨_, _, exec_absorb d s, exec_absorb d _, rfl⟩
  | final => exact ⟨_, _, exec_final s, exec_final _, rfl⟩
  | clrerr => exact ⟨_, _, exec_clrerr s, exec_clrerr _, rfl⟩

/-! ### STATUS and the state after reset -/

/-- Bit 1 of STATUS is ERR_ILLEGAL (R26). -/
theorem statusWord_bit_one (s : State) : s.statusWord.getLsbD 1 = s.errIllegal := by
  simp only [State.statusWord, BitVec.getLsbD_append]
  cases s.errIllegal <;> rfl

/-- Bit 2 of STATUS is ERR_OVERRUN (R26). -/
theorem statusWord_bit_two (s : State) : s.statusWord.getLsbD 2 = s.errOverrun := by
  simp only [State.statusWord, BitVec.getLsbD_append]
  cases s.errOverrun <;> rfl

/-- The other bits of STATUS are 0 (R26). -/
theorem statusWord_high_bits (s : State) {k : Nat} (hk : 3 ≤ k) : s.statusWord.getLsbD k = false := by
  have h0 : ¬ k < 1 := by omega
  have h1 : ¬ k - 1 < 1 := by omega
  have h2 : ¬ k - 1 - 1 < 1 := by omega
  simp only [State.statusWord, BitVec.getLsbD_append, h0, h1, h2, if_false]
  exact BitVec.getLsbD_zero

/-- Settles O42, from the bits of the STATUS word. -/
theorem statusFields : Obligations.StatusFields := fun s =>
  ⟨statusWord_bit_zero s, statusWord_bit_one s, statusWord_bit_two s, fun _ => statusWord_high_bits s⟩

/-- Settles O44, field by field. -/
theorem resetStateValues : Obligations.ResetStateValues := by
  have hdigest : ∀ k : Fin 32, State.reset.digest[k] = 0 := fun k => Vector.getElem_replicate k.isLt
  exact ⟨rfl, hdigest, rfl, rfl, rfl, rfl, rfl⟩

/-! ### The writers of ACC, DIGEST and LEN -/

/-- A write of a command word never touches ACC, DIGEST or LEN: the commands that do are only accepted by it (R90). -/
theorem writeCommand_keeps_data {s t : State} {w : Word32} (h : writeCommand w s = .next t) :
    t.acc = s.acc ∧ t.digest = s.digest ∧ t.len = s.len := by
  rcases writeCommand_cases h with ⟨-, rfl⟩ | ⟨-, -, rfl⟩ | ⟨-, i, c, -, -, rfl⟩ | ⟨-, -, rfl⟩ | ⟨-, -, rfl⟩ <;>
    simp

/-- Everything a step can do to ACC, DIGEST and LEN: complete a pending command, reset, or leave them as they are. -/
theorem step_data_cases {s t : State} (h : step s = .next t) :
    (∃ c, CoreCompletes c s ∧ t = completed c s.takeTurn) ∨
    (HostResets s ∧ t.len = 0) ∨
    (t.acc = s.acc ∧ t.digest = s.digest ∧ t.len = s.len) := by
  rcases step_block_cases h with hc | ⟨hr, rest, phase, rfl⟩ | ⟨w, rest, -, -, hw⟩ | ⟨ha, hd, hl, -⟩
  · exact .inl hc
  · exact .inr (.inl ⟨hr, rfl⟩)
  · exact .inr (.inr (by simpa using writeCommand_keeps_data hw))
  · exact .inr (.inr ⟨ha, hd, hl⟩)

/-- Settles O53. -/
theorem accWriters : Obligations.AccWriters := by
  intro s t h hne
  rcases step_data_cases h with ⟨c, hc, -⟩ | ⟨hr, -⟩ | ⟨ha, -, -⟩
  · exact .inl ⟨c, hc⟩
  · exact .inr hr
  · exact absurd ha hne

/-- Settles O54: of the completing commands only FINAL touches DIGEST. -/
theorem digestWriters : Obligations.DigestWriters := by
  intro s t h hne
  rcases step_data_cases h with ⟨c, hc, rfl⟩ | ⟨hr, -⟩ | ⟨-, hd, -⟩
  · cases c with
    | init => simp [completed] at hne
    | absorb d => simp [completed] at hne
    | final => exact .inl hc
  · exact .inr hr
  · exact absurd hd hne

/-- Settles O55, by the completing command's own effect on LEN. -/
theorem lenWriters : Obligations.LenWriters := by
  intro s t h hne
  rcases step_data_cases h with ⟨c, hc, rfl⟩ | ⟨hr, hl⟩ | ⟨-, -, hl⟩
  · cases c with
    | init => exact .inr ⟨.inl hc, rfl⟩
    | absorb d => exact .inl ⟨d, hc, by simp [completed, BitVec.toNat_add]⟩
    | final => exact .inr ⟨.inr (.inl hc), rfl⟩
  · exact .inr ⟨.inr (.inr hr), hl⟩
  · exact absurd hl hne

/-! ### The error flags and PENDING -/

/-- The ways a step may change ERR_ILLEGAL, ERR_OVERRUN and PENDING. -/
inductive ControlEffect (s t : State) : Prop
  /-- The core completes the pending command (R91). -/
  | completes (c : Pending) (hc : CoreCompletes c s) (illegal : t.errIllegal = s.errIllegal)
      (overrun : t.errOverrun = s.errOverrun) (pending : t.pending = none)
  /-- The host applies reset (R115). -/
  | resets (hr : HostResets s) (illegal : t.errIllegal = false) (overrun : t.errOverrun = false)
      (pending : t.pending = none)
  /-- A word is written to CMD while BUSY = 1 (R103). -/
  | overruns (w : Word32) (hw : HostWritesCmd w s) (busy : s.busy = true) (illegal : t.errIllegal = s.errIllegal)
      (overrun : t.errOverrun = true) (pending : t.pending = s.pending)
  /-- An illegal word is written to CMD while BUSY = 0 (R102). -/
  | rejects (w : Word32) (why : IllegalReason) (hw : HostWritesCmd w s) (busy : s.busy = false)
      (hd : decode w = .illegal why) (illegal : t.errIllegal = true) (overrun : t.errOverrun = s.errOverrun)
      (pending : t.pending = s.pending)
  /-- INIT, ABSORB or FINAL is accepted (R90). -/
  | accepts (w : Word32) (i : Instr) (c : Pending) (hw : HostWritesCmd w s) (busy : s.busy = false)
      (hd : decode w = .command i) (hc : pendingOf i = some c) (illegal : t.errIllegal = s.errIllegal)
      (overrun : t.errOverrun = s.errOverrun) (pending : t.pending = some c)
  /-- CLRERR is performed within its write (R93). -/
  | clears (w : Word32) (hw : HostWritesCmd w s) (busy : s.busy = false) (hd : decode w = .command .clrerr)
      (illegal : t.errIllegal = false) (overrun : t.errOverrun = false) (pending : t.pending = s.pending)
  /-- None of the three changes. -/
  | keeps (illegal : t.errIllegal = s.errIllegal) (overrun : t.errOverrun = s.errOverrun)
      (pending : t.pending = s.pending)

/-- A CMD write out of reset has one of the effects of the command protocol (R90). -/
theorem writeCommand_controlEffect {s t : State} {w : Word32} {rest : List HostOp}
    (hi : HostIssues (.write .w32 0x08 w) rest s) (h : writeCommand w (s.issued rest) = .next t) :
    ControlEffect s t := by
  have hw : HostWritesCmd w s := ⟨rest, hi⟩
  rcases writeCommand_cases h with ⟨hp, rfl⟩ | ⟨hp, ⟨why, hd⟩, rfl⟩ | ⟨hp, i, c, hd, hc, rfl⟩ | ⟨-, -, rfl⟩ |
    ⟨hp, hd, rfl⟩
  · exact .overruns w hw (by simpa using hp) (by simp) rfl (by simp)
  · exact .rejects w why hw (by simpa using hp) hd rfl (by simp) (by simp)
  · exact .accepts w i c hw (by simpa using hp) hd hc (by simp) (by simp) rfl
  · exact .keeps (by simp) (by simp) (by simp)
  · exact .clears w hw (by simpa using hp) hd rfl rfl (by simp)

/-- Every step that answers a next state has one of the control effects. -/
theorem step_controlEffect {s t : State} (h : step s = .next t) : ControlEffect s t := by
  rcases step_block_cases h with ⟨c, hc, rfl⟩ | ⟨hr, rest, phase, rfl⟩ | ⟨w, rest, hi, -, hw⟩ | ⟨-, -, -, he, ho, hp⟩
  · exact .completes c hc (by simp) (by simp) (by simp)
  · exact .resets hr rfl rfl rfl
  · exact writeCommand_controlEffect hi hw
  · exact .keeps he ho hp

/-- Settles O56: only a rejected word raises ERR_ILLEGAL, and only CLRERR and reset lower it. -/
theorem errIllegalIsSticky : Obligations.ErrIllegalIsSticky := by
  intro s t h
  constructor
  · intro hs ht
    cases step_controlEffect h with
    | rejects w why hw busy hd => exact ⟨w, why, hw, busy, hd⟩
    | _ => simp_all
  · intro hs ht
    cases step_controlEffect h with
    | clears w hw busy hd => exact .inl ⟨w, hw, busy, hd⟩
    | resets hr => exact .inr hr
    | _ => simp_all

/-- Settles O57: only an overrun raises ERR_OVERRUN, and only CLRERR and reset lower it. -/
theorem errOverrunIsSticky : Obligations.ErrOverrunIsSticky := by
  intro s t h
  constructor
  · intro hs ht
    cases step_controlEffect h with
    | overruns w hw busy => exact ⟨w, hw, busy⟩
    | _ => simp_all
  · intro hs ht
    cases step_controlEffect h with
    | clears w hw busy hd => exact .inl ⟨w, hw, busy, hd⟩
    | resets hr => exact .inr hr
    | _ => simp_all

/-- Settles O58: only acceptance fills PENDING, only completion and reset empty it, and no effect replaces it. -/
theorem busyFollowsAcceptanceAndCompletion : Obligations.BusyFollowsAcceptanceAndCompletion := by
  intro s t h
  refine ⟨busy_iff s, fun hs ht => ?_, fun hs ht => ?_, fun hs ht => ?_⟩
  · cases step_controlEffect h with
    | accepts w i c hw _ hd hc _ _ pending => exact ⟨w, i, c, hw, hd, hc, pending⟩
    | _ => simp_all
  · cases step_controlEffect h with
    | completes c hc => exact .inl ⟨c, hc⟩
    | resets hr => exact .inr hr
    | _ => simp_all
  · cases step_controlEffect h with
    | overruns _ _ _ _ _ pending => exact pending
    | keeps _ _ pending => exact pending
    | _ => simp_all

end Sys2Proof.Machine

/-! Proofs for 20_memory.md: the register map and its window, the accesses the bus refuses, the values after reset, the
frame of reads and ignored writes, and the two outcomes of a CMD write that races a completion. -/

namespace Sys2Proof.Machine

/-! ### The register map and the window -/

/-- The register that holds an aligned offset lies at that offset. -/
theorem offset_registerAt (off : Byte) (h : off.toNat % 4 = 0) : (registerAt off).offset = off := by
  revert off; decide

/-- Settles O37: each row of the map is `registerAt_offset` of its register. -/
theorem registerMapOffsets : Obligations.RegisterMapOffsets :=
  ⟨registerAt_offset .id, registerAt_offset .status, registerAt_offset .cmd, registerAt_offset .len,
    fun k => registerAt_offset (.reserved k), fun k => registerAt_offset (.digestW k),
    fun i k => registerAt_offset (.accSlice i k), fun k => registerAt_offset (.unmapped k),
    fun r => ⟨registerAt_offset r, offset_aligned r⟩, offset_registerAt⟩

/-- An address selects an offset exactly where it is the system address of it. -/
theorem windowOffset_eq_some (addr : Nat) (off : Byte) : windowOffset addr = some off ↔ systemAddress off = addr := by
  have hoff : off.toNat < 256 := off.isLt
  unfold windowOffset systemAddress
  split
  · rw [Option.some.injEq, ← BitVec.toNat_inj, BitVec.toNat_ofNat]; omega
  · simp only [reduceCtorEq, false_iff]; omega

/-- Settles O43. -/
theorem systemAddressSelectsItsOffset : Obligations.SystemAddressSelectsItsOffset := by
  refine ⟨fun off => (windowOffset_eq_some _ off).2 rfl, fun addr h => ?_,
    fun addr off => (windowOffset_eq_some addr off).1⟩
  exact if_neg (by omega)

/-! ### Little-endian bytes of the window -/

/-- Byte j of DIGEST_Wk is digest byte 4k + j (R39). -/
theorem extract_digestWord (d : Digest) (k : Fin 8) (j : Fin 4) :
    (digestWord d k).extractLsb' (8 * j.val) 8 = d[4 * k.val + j.val]'(by show _ < 32; omega) := by
  obtain ⟨h0, h1, h2, h3⟩ := extract_wordOfBytes (d[4 * k.val]'(by show _ < 32; omega))
    (d[4 * k.val + 1]'(by show _ < 32; omega)) (d[4 * k.val + 2]'(by show _ < 32; omega))
    (d[4 * k.val + 3]'(by show _ < 32; omega))
  match j with
  | 0 => exact h0
  | 1 => exact h1
  | 2 => exact h2
  | 3 => exact h3

/-- Offset 0x20 + n lies in byte lane n mod 4 of DIGEST_W(n/4) (R38, R39). -/
theorem digest_window (n : Fin 32) :
    registerAt (BitVec.ofNat 8 (0x20 + n.val)) = .digestW ⟨n.val / 4, by omega⟩ ∧
    (BitVec.ofNat 8 (0x20 + n.val)).toNat % 4 = n.val % 4 := by
  revert n; decide

/-- Offset 0x40 + 16i + j lies in byte lane j mod 4 of ACC_i_(j/4) (R38, R40). -/
theorem acc_window (i : Fin 4) (j : Fin 16) :
    registerAt (BitVec.ofNat 8 (0x40 + 16 * i.val + j.val)) = .accSlice i ⟨j.val / 4, by omega⟩ ∧
    (BitVec.ofNat 8 (0x40 + 16 * i.val + j.val)).toNat % 4 = j.val % 4 := by
  revert i j; decide

/-- The window's byte at 0x20 + n is digest byte n (R39). -/
theorem windowByte_digest (s : State) (n : Fin 32) :
    s.windowByte (BitVec.ofNat 8 (0x20 + n.val)) = s.digest[n.val] := by
  obtain ⟨hreg, hlane⟩ := digest_window n
  have hbyte := extract_digestWord s.digest ⟨n.val / 4, by omega⟩ ⟨n.val % 4, by omega⟩
  simp only [Nat.div_add_mod] at hbyte
  simpa only [State.windowByte, hreg, hlane, State.registerValue] using hbyte

/-- The window's byte at 0x40 + 16i + j is byte j of ACC[i] (R40). -/
theorem windowByte_acc (s : State) (i : Fin 4) (j : Fin 16) :
    s.windowByte (BitVec.ofNat 8 (0x40 + 16 * i.val + j.val)) = (s.acc.get i).extractLsb' (8 * j.val) 8 := by
  obtain ⟨hreg, hlane⟩ := acc_window i j
  have hbit : 32 * (j.val / 4) + 8 * (j.val % 4) = 8 * j.val := by omega
  simp only [State.windowByte, hreg, hlane, State.registerValue, sliceOfU128]
  rw [extract_extract _ (by omega), hbit]

/-- Settles O41. -/
theorem windowBytesAreLittleEndian : Obligations.WindowBytesAreLittleEndian := fun s =>
  ⟨extract_digestWord s.digest, windowByte_digest s, fun _ _ => rfl, windowByte_acc s⟩

/-! ### The registers after reset -/

/-- Settles O45: every DIGEST_Wk is put together from four zero bytes, and ACC is the IV. -/
theorem resetRegisterValues : Obligations.ResetRegisterValues := by
  have hdigest : ∀ k : Fin 8, State.reset.registerValue (.digestW k) = 0 := by
    intro k
    simp only [State.registerValue, State.reset, digestWord, Vector.getElem_replicate]
    rfl
  exact ⟨rfl, rfl, rfl, hdigest, fun _ _ => rfl⟩

/-! ### Accesses that are refused, and accesses without effect -/

/-- An access of another width, or at no multiple of 4, is none the bus defines (R36, R37). -/
theorem accessLegal_eq_false {width : AccessWidth} {off : Byte} (h : width ≠ .w32 ∨ off.toNat % 4 ≠ 0) :
    accessLegal width off = false := by
  rw [← Bool.not_eq_true, accessLegal_eq_true]; tauto

/-- Settles O40. -/
theorem protocolViolationsAreRefused : Obligations.ProtocolViolationsAreRefused := by
  intro s rest width off v hbad hissues
  have hlegal := accessLegal_eq_false hbad
  rcases hissues with hr | hw
  · rw [step_of_hostIssues hr]; exact perform_illegal (op := .read width off) hlegal _
  · rw [step_of_hostIssues hw]; exact perform_illegal (op := .write width off v) hlegal _

/-- A read, or a write anywhere but at CMD, can only be ignored or answer a value. -/
theorem performHostOp_access_cases {s t : State} {op : HostOp} (h : performHostOp op s = .next t)
    (hop : (∃ width off, op = .read width off) ∨ ∃ width off v, op = .write width off v ∧ off ≠ 0x08) :
    t = s ∨ ∃ r, t = (s.afterRead r).reply (s.readValue r) := by
  rcases performHostOp_cases h with ⟨rfl, -⟩ | ⟨rfl, -⟩ | ⟨rfl, -⟩ | ⟨w, rfl, -⟩ | ⟨-, -, -, -, -, ht⟩ |
    ⟨off, -, -, -, ht⟩ | ⟨rfl, -⟩
  · simp at hop
  · simp at hop
  · simp at hop
  · simp at hop
  · exact .inl ht
  · exact .inr ⟨_, ht⟩
  · simp at hop

/-- A read out of reset that is not unspecified answers the register's value and changes nothing else. -/
theorem step_read_exact {s : State} {r : Register} {rest : List HostOp} (h : HostIssues (readReg r) rest s)
    (hr : s.phase = .running) (hexact : s.busy = false ∨ r.isResult = false) :
    step s = .next ((s.issued rest).reply (s.registerValue r)) := by
  have hspec : (s.issued rest).readUnspecified r = false := readUnspecified_eq_false (by simpa) (by simpa using hexact)
  obtain ⟨hvalue, hafter⟩ := readValue_exact hspec
  rw [step_of_hostIssues h, readReg, perform_read (offset_aligned r) (by simp [hr]), registerAt_offset, hvalue, hafter,
    issued_registerValue]

@[simp] theorem reply_registerValue (s : State) (v : Word32) (r : Register) :
    (s.reply v).registerValue r = s.registerValue r := by cases r <;> rfl

/-- Where the next two turns are the host's, the host moves again after an access that leaves `pending` alone. -/
theorem mover_issued_reply {s : State} {rest : List HostOp} (v : Word32) (hr : s.phase = .running)
    (hturn : s.turns.tail.head? = some .host) : ((s.issued rest).reply v).mover = .host := by
  rw [mover_eq_host]
  by_cases hp : s.pending = none
  · exact .inr (.inl (by simpa using hp))
  · exact .inr (.inr (by simpa [takeTurn_of_pending hr hp] using hturn))

/-- Settles O39, by what an access can do and by the value two exact reads answer. -/
theorem onlyCmdWritesHaveSideEffects : Obligations.OnlyCmdWritesHaveSideEffects := by
  constructor
  · intro s t rest op hissues hstep hop
    rw [step_of_hostIssues hissues] at hstep
    rcases performHostOp_access_cases hstep hop with rfl | ⟨r, rfl⟩ <;> simp
  · intro s rest r hr hturn hturn' hprog hexact
    have hmover : s.mover = .host := (mover_eq_host s).2 (.inr (.inr hturn))
    have hfirst := step_read_exact ⟨hmover, hprog⟩ hr hexact
    have hsecond := step_read_exact (s := (s.issued (readReg r :: rest)).reply (s.registerValue r)) (rest := rest)
      ⟨mover_issued_reply _ hr hturn', rfl⟩ (by simpa) (by simpa using hexact)
    exact ⟨_, s.registerValue r, (run_succ 1 hfirst).trans (run_succ 0 hsecond), by simp⟩

/-! ### A CMD write that races a completion -/

/-- Decoding the word of a command gives the command again (R51, R58). -/
theorem decode_encode (i : Instr) : decode (encode i) = .command i := by
  rw [decode_of_fields (rsvdField_encode i) (opField_encode i), dataField_encode]
  cases i <;> rfl

/-- The host, to move out of reset with `CMD i` as its next operation, writes the command's word to CMD. -/
theorem step_cmd {s : State} {i : Instr} {rest : List HostOp} (h : HostIssues (cmd i) rest s)
    (hr : s.phase = .running) : step s = writeCommand (encode i) (s.issued rest) := step_cmd_write h hr

/-- An idle block accepts `CMD i` for CoreComplete (R90). -/
theorem step_cmd_accepted {s : State} {i : Instr} {c : Pending} {rest : List HostOp} (hr : s.phase = .running)
    (hidle : s.pending = none) (hprog : s.program = cmd i :: rest) (hc : pendingOf i = some c) :
    step s = .next { s with program := rest, pending := some c } := by
  rw [step_cmd ⟨mover_of_idle hidle, hprog⟩ hr, writeCommand_accepted (by simpa) (decode_encode i) hc, State.issued,
    takeTurn_of_idle hidle]
  rfl

/-- A busy block drops `CMD i` and sets ERR_OVERRUN, the host having the turn (R90, R103). -/
theorem step_cmd_overrun {s : State} {i : Instr} {rest : List HostOp} {turns : List Agent} (hr : s.phase = .running)
    (hbusy : s.pending ≠ none) (hturns : s.turns = .host :: turns) (hprog : s.program = cmd i :: rest) :
    step s = .next { s with program := rest, turns := turns, errOverrun := true } := by
  have hmover : s.mover = .host := (mover_eq_host s).2 (.inr (.inr (by simp [hturns])))
  rw [step_cmd ⟨hmover, hprog⟩ hr, writeCommand_busy _ (by simpa), State.issued, takeTurn_of_pending hr hbusy, hturns]
  rfl

/-- An ABSORB completes in the core's turn: its byte is merged and PENDING is none (R77, R91). -/
theorem step_absorb_completes {s : State} {d : Byte} {turns : List Agent} (hr : s.phase = .running)
    (hpending : s.pending = some (.absorb d)) (hturns : s.turns = .core :: turns) :
    step s = .next { s with
      turns := turns, acc := s.acc.xor (contribution Config.params d), len := s.len + 1, pending := none } := by
  have hbusy : s.pending ≠ none := by simp [hpending]
  have hmover : s.mover = .core := (mover_eq_core s).2 ⟨hr, hbusy, by simp [hturns]⟩
  rw [step_completes ⟨hmover, hpending⟩, takeTurn_of_pending hr hbusy, hturns]
  rfl

/-- Settles O33: the second write comes before the completion in the turns host, core, and after it in core, core. -/
theorem racingWriteHasBothOutcomes : Obligations.RacingWriteHasBothOutcomes := by
  intro s d e rest hr hidle hprog
  refine ⟨⟨[.host, .core], ?_⟩, ⟨[.core, .core], ?_⟩⟩
  · calc run 3 { s with turns := [.host, .core] }
      _ = run 2 { s with
            turns := [.host, .core], program := cmd (.absorb e) :: rest, pending := some (.absorb d) } :=
        run_succ 2 (step_cmd_accepted hr hidle hprog rfl)
      _ = run 1 { s with turns := [.core], program := rest, pending := some (.absorb d), errOverrun := true } :=
        run_succ 1 (step_cmd_overrun hr nofun rfl rfl)
      _ = .next { s with
            turns := [], program := rest, acc := s.acc.xor (contribution Config.params d), len := s.len + 1,
            errOverrun := true, pending := none } := run_succ 0 (step_absorb_completes hr rfl rfl)
      _ = _ := by rw [hidle]
  · calc run 4 { s with turns := [.core, .core] }
      _ = run 3 { s with
            turns := [.core, .core], program := cmd (.absorb e) :: rest, pending := some (.absorb d) } :=
        run_succ 3 (step_cmd_accepted hr hidle hprog rfl)
      _ = run 2 { s with
            turns := [.core], program := cmd (.absorb e) :: rest, acc := s.acc.xor (contribution Config.params d),
            len := s.len + 1, pending := none } := run_succ 2 (step_absorb_completes hr rfl rfl)
      _ = run 1 { s with
            turns := [.core], program := rest, acc := s.acc.xor (contribution Config.params d), len := s.len + 1,
            pending := some (.absorb e) } := run_succ 1 (step_cmd_accepted hr rfl rfl rfl)
      _ = .next { s with
            turns := [], program := rest,
            acc := (s.acc.xor (contribution Config.params d)).xor (contribution Config.params e),
            len := s.len + 1 + 1, pending := none } := run_succ 0 (step_absorb_completes hr rfl rfl)
      _ = _ := by rw [hidle, BitVec.add_assoc]; rfl

end Sys2Proof.Machine

/-! Proofs for 30_encoding.md: the decoder by the table's mask and match words, the round trip of every command, the
DATA field, the assembler's lines, and what the host's step does with an illegal word and with WAIT. -/

namespace Sys2Proof

/-! ### The round trip -/

/-- A 32-bit table word is decoded as the word itself. -/
theorem decodeTableWord_toNat (w : Word32) : decodeTableWord 32 w.toNat = (decode w).toOption := by
  rw [decodeTableWord, Nat.mod_eq_of_lt w.isLt, BitVec.ofNat_toNat, BitVec.setWidth_eq, decodeBytes_bytesOfWord]

/-- Settles O1: the word's bytes and the table word decode as the word does. -/
theorem decodeEncodeRoundTrip : Obligations.DecodeEncodeRoundTrip := by
  intro i
  have hword : decode (encode i) = .command i := Machine.decode_encode i
  refine ⟨hword, ?_, ?_⟩
  · rw [encodeBytes, decodeBytes_bytesOfWord, hword]
  · rw [decodeTableWord_toNat, hword]; rfl

/-! ### The opcode map -/

/-- A word stands in a command's row of the table where RSVD is 0 and OP is the command's opcode (R50, R51). -/
theorem tableMask_eq_matchWord_iff (w : Word32) (i : Instr) :
    w &&& tableMask = i.matchWord ↔ rsvdField w = 0 ∧ opField w = i.opcode := by
  have hmatch : i.matchWord = i.opcode.setWidth 32 := by cases i <;> rfl
  rw [hmatch, tableMask_eq_iff]

/-- A word decodes to a command exactly where it stands in the command's row, with ABSORB's operand in DATA. -/
theorem decode_eq_command_iff (w : Word32) (i : Instr) :
    decode w = .command i ↔ w &&& tableMask = i.matchWord ∧ ∀ d, i = .absorb d → d = dataField w := by
  rw [tableMask_eq_matchWord_iff]
  constructor
  · intro h
    rcases decode_cases w with ⟨-, hd⟩ | ⟨hr, ⟨ho, hd⟩ | ⟨ho, hd⟩ | ⟨ho, hd⟩ | ⟨ho, hd⟩ | ⟨ho, hd⟩ | ⟨-, hd⟩⟩ <;>
      rw [hd] at h <;> cases h
    · exact ⟨⟨hr, ho⟩, nofun⟩
    · exact ⟨⟨hr, ho⟩, nofun⟩
    · exact ⟨⟨hr, ho⟩, fun _ hi => (Instr.absorb.inj hi).symm⟩
    · exact ⟨⟨hr, ho⟩, nofun⟩
    · exact ⟨⟨hr, ho⟩, nofun⟩
  · rintro ⟨⟨hr, ho⟩, hdata⟩
    rw [decode_of_fields hr ho]
    cases i with
    | absorb d => rw [hdata d rfl]; rfl
    | _ => rfl

/-- For the commands without an operand the row alone decides. -/
theorem decode_eq_command_iff_of_ne_absorb (w : Word32) {i : Instr} (hi : ∀ d, i ≠ .absorb d) :
    decode w = .command i ↔ w &&& tableMask = i.matchWord := by
  rw [decode_eq_command_iff]
  exact and_iff_left fun d h => absurd h (hi d)

theorem decode_eq_absorb_iff (w : Word32) (d : Byte) :
    decode w = .command (.absorb d) ↔ w &&& tableMask = 0x00000002 ∧ d = dataField w := by
  rw [decode_eq_command_iff]
  simp [Instr.matchWord]

theorem decode_reserved {w : Word32} (h : rsvdField w ≠ 0) : decode w = .illegal .reservedBitsSet := if_pos h

/-- A word is ILLEGAL exactly where a reserved bit is set or its opcode is unassigned (R53, R54). -/
theorem decode_illegal_iff (w : Word32) :
    (∃ why, decode w = .illegal why) ↔ rsvdField w ≠ 0 ∨ 5 ≤ (opField w).toNat := by
  rcases decode_cases w with ⟨hr, hd⟩ | ⟨hr, ⟨ho, hd⟩ | ⟨ho, hd⟩ | ⟨ho, hd⟩ | ⟨ho, hd⟩ | ⟨ho, hd⟩ | ⟨ho, hd⟩⟩
  case inl => exact iff_of_true ⟨_, hd⟩ (.inl hr)
  case inr.inr.inr.inr.inr.inr => exact iff_of_true ⟨_, hd⟩ (.inr ho)
  all_goals simp [hd, hr, ho]

/-- Settles O2, row by row. -/
theorem opcodeMapSelectsCommands : Obligations.OpcodeMapSelectsCommands := fun w =>
  ⟨decode_eq_command_iff_of_ne_absorb w nofun, decode_eq_command_iff_of_ne_absorb w nofun, decode_eq_absorb_iff w,
    decode_eq_command_iff_of_ne_absorb w nofun, decode_eq_command_iff_of_ne_absorb w nofun, decode_illegal_iff w⟩

/-! ### The DATA field -/

/-- The word with its DATA byte, bits 15:8, replaced (R50). -/
def withData (w : Word32) (d : Byte) : Word32 := (w &&& tableMask) ||| (d.setWidth 32 <<< (8 : Nat))

/-- The decoder's answer with ABSORB's operand replaced: no other answer has an operand (R52). -/
def Decoded.withOperand (d : Byte) : Decoded → Decoded
  | .command (.absorb _) => .command (.absorb d)
  | .command i => .command i
  | .illegal why => .illegal why

/-- The table's mask covers OP and RSVD and leaves out DATA. -/
theorem getLsbD_tableMask {k : Nat} (hk : k < 32) : tableMask.getLsbD k = (decide (k < 8) || decide (16 ≤ k)) := by
  revert k; decide

theorem getLsbD_withData (w : Word32) (d : Byte) {k : Nat} (hk : k < 32) :
    (withData w d).getLsbD k = if 8 ≤ k ∧ k < 16 then d.getLsbD (k - 8) else w.getLsbD k := by
  simp only [withData, BitVec.getLsbD_or, BitVec.getLsbD_and, getLsbD_tableMask hk, BitVec.getLsbD_shiftLeft,
    BitVec.getLsbD_setWidth, hk, show k - 8 < 32 by omega, decide_true, Bool.true_and]
  split
  · next h => simp [show ¬ k < 8 by omega, show ¬ 16 ≤ k by omega]
  · next h =>
    rcases Nat.lt_or_ge k 8 with h8 | h8
    · simp [h8]
    · simp [show 16 ≤ k by omega, BitVec.getLsbD_of_ge d (k - 8) (by omega)]

@[simp] theorem rsvdField_withData (w : Word32) (d : Byte) : rsvdField (withData w d) = rsvdField w := by
  apply BitVec.eq_of_getLsbD_eq
  intro k hk
  simp [rsvdField, getLsbD_withData w d (show 16 + k < 32 by omega)]

@[simp] theorem opField_withData (w : Word32) (d : Byte) : opField (withData w d) = opField w := by
  apply BitVec.eq_of_getLsbD_eq
  intro k hk
  simp [opField, getLsbD_withData w d (show k < 32 by omega), show ¬ 8 ≤ k by omega]

@[simp] theorem dataField_withData (w : Word32) (d : Byte) : dataField (withData w d) = d := by
  apply BitVec.eq_of_getLsbD_eq
  intro k hk
  simp [dataField, getLsbD_withData w d (show 8 + k < 32 by omega), hk, show 8 + k < 16 by omega]

/-- Replacing DATA replaces ABSORB's operand and nothing else (R52). -/
theorem decode_withData (w : Word32) (d : Byte) : decode (withData w d) = (decode w).withOperand d := by
  by_cases hr : rsvdField w = 0
  · rw [decode_of_fields (w := withData w d) (op := opField w) (by simpa) (by simp), decode_of_fields hr rfl,
      dataField_withData]
    split <;> rfl
  · rw [decode_reserved hr, decode_reserved (by simpa using hr)]; rfl

/-- Settles O3, each clause being `decode_withData` at one kind of answer. -/
theorem dataFieldIsOnlyAbsorbsOperand : Obligations.DataFieldIsOnlyAbsorbsOperand := by
  intro w d
  have hdecode : decode (withData w d) = (decode w).withOperand d := decode_withData w d
  refine ⟨fun i hd hi => hdecode.trans ?_, fun e hd => hdecode.trans ?_, fun why hd => hdecode.trans ?_⟩
  · rw [hd]
    cases i with
    | absorb e => exact absurd rfl (hi e)
    | _ => rfl
  · rw [hd]; rfl
  · rw [hd]; rfl

/-- Settles O4, each word by evaluation of the decoder. -/
theorem wordsWrittenOutDecode : Obligations.WordsWrittenOutDecode := by
  unfold Obligations.WordsWrittenOutDecode; decide

/-! ### The assembler -/

/-- The word of ABSORB as a number: the opcode, and the operand in bits 15:8 (R51, R58). -/
theorem encode_absorb (d : Byte) : encode (.absorb d) = BitVec.ofNat 32 (0x00000002 + 256 * d.toNat) := by
  revert d; decide

theorem assemble_absorb {d : Nat} (h : d < 256) :
    assemble (.absorb d) = some (BitVec.ofNat 32 (0x00000002 + 256 * d)) := by
  have hbyte : (BitVec.ofNat 8 d).toNat = d := by rw [BitVec.toNat_ofNat]; omega
  simp [assemble, AsmLine.wf, h, encode_absorb, hbyte]

theorem assemble_word {w : Nat} (h : w < 2 ^ 32) : assemble (.word w) = some (BitVec.ofNat 32 w) :=
  if_pos (decide_eq_true h)

/-- An operand outside 0..255 is an assembler error (R58). -/
theorem assemble_absorb_error {d : Nat} (h : 256 ≤ d) : assemble (.absorb d) = none :=
  if_neg (by simpa [AsmLine.wf] using h)

/-- Settles O5, line by line. -/
theorem assemblerLines : Obligations.AssemblerLines :=
  ⟨rfl, rfl, fun _ => assemble_absorb, rfl, rfl, fun _ => assemble_word, fun _ => assemble_absorb_error⟩

end Sys2Proof

namespace Sys2Proof.Machine

/-! ### Illegal words and WAIT in the host's step -/

/-- Settles O28: both kinds of word are illegal to the decoder, and an idle block only raises ERR_ILLEGAL on one. -/
theorem illegalCommandSetsOnlyItsFlag : Obligations.IllegalCommandSetsOnlyItsFlag := by
  intro s w rest hw hi hr hb
  obtain ⟨why, hd⟩ : ∃ why, decode w = .illegal why := (decode_illegal_iff w).2 (hw.imp_right And.right)
  have hidle : (s.issued rest).pending = none := by simpa using hb
  rw [step_cmd_write hi hr, writeCommand_illegal hidle hd]
  rfl

/-- Out of reset, WAIT is one poll of STATUS. -/
theorem step_wait {s : State} {rest : List HostOp} (h : HostIssues .wait rest s) (hr : s.phase = .running) :
    step s = .next (if s.busy then s.takeTurn else s.issued rest) := by
  have hback : { s.issued rest with program := .wait :: (s.issued rest).program } = s.takeTurn := by
    rw [issued_program, ← h.2, ← takeTurn_program s]; rfl
  rw [step_of_hostIssues h, perform_wait (by simp [hr]), pollStatus_running (by simpa), issued_busy, hback]

/-- Settles O34. -/
theorem waitPollsUntilIdle : Obligations.WaitPollsUntilIdle := by
  intro s rest hi hr
  rw [step_wait hi hr]
  exact ⟨fun hb => by rw [if_pos hb], fun hb => by rw [if_neg (by simp [hb])]⟩

end Sys2Proof.Machine

/-! Proofs for 40_nonlinear_transform.md: the two rotations bit by bit, NLT as a number and its properties, and the four
words of a StateMixer result. -/

namespace Sys2Proof.Machine

/-! ### Rotations -/

@[simp] theorem rotl_zero (v : U128) : rotl v 0 = v := rfl
@[simp] theorem rotr_zero (v : U128) : rotr v 0 = v := rfl

theorem rotl_of_pos (v : U128) {n : Nat} (h : 1 ≤ n) : rotl v n = (v <<< n) ||| (v >>> (128 - n)) :=
  if_neg (by omega)

theorem rotr_of_pos (v : U128) {n : Nat} (h : 1 ≤ n) : rotr v n = (v >>> n) ||| (v <<< (128 - n)) :=
  if_neg (by omega)

/-- Both rotations are the same two shifts, or-ed together in the other order. -/
theorem rotr_eq_rotl (v : U128) {n : Nat} (h : 1 ≤ n) (hn : n ≤ 127) : rotr v n = rotl v (128 - n) := by
  rw [rotr_of_pos v h, rotl_of_pos v (show 1 ≤ 128 - n by omega), show 128 - (128 - n) = n by omega, BitVec.or_comm]

theorem getLsbD_rotl (v : U128) {n k : Nat} (hn : n ≤ 127) (hk : k < 128) :
    (rotl v n).getLsbD k = v.getLsbD ((k + 128 - n) % 128) := by
  rw [rotl_eq_rotateLeft v hn, BitVec.getLsbD_rotateLeft_of_le (w := 128) (by omega)]
  by_cases h : k < n
  · simp [h, show (k + 128 - n) % 128 = 128 - n + k by omega]
  · simp [h, hk, show (k + 128 - n) % 128 = k - n by omega]

theorem getLsbD_rotr (v : U128) {n k : Nat} (hn : n ≤ 127) (hk : k < 128) :
    (rotr v n).getLsbD k = v.getLsbD ((k + n) % 128) := by
  rw [rotr_eq_rotateRight v hn, BitVec.getLsbD_rotateRight_of_lt (w := 128) (by omega)]
  by_cases h : k < 128 - n
  · simp [h, show (k + n) % 128 = n + k by omega]
  · simp [h, hk, show (k + n) % 128 = k - (128 - n) by omega]

/-- Settles O6: the formulas are the definitions' branches, and the bits are `getLsbD_rotl` and `getLsbD_rotr`. -/
theorem rotationsMoveBits : Obligations.RotationsMoveBits :=
  ⟨by decide, by decide, by decide, fun v =>
    ⟨rotl_zero v, rotr_zero v, fun _ h hn => ⟨rotl_of_pos v h, rotr_of_pos v h, rotr_eq_rotl v h hn⟩,
      fun _ hn _ hk => ⟨getLsbD_rotl v hn hk, getLsbD_rotr v hn hk⟩⟩⟩

/-! ### NLT as a number -/

/-- PRIME = 0 makes every product 0 (R66). -/
theorem nlt_zero_prime (v : U128) : nlt 0 v = 0 := by simp [nlt]

/-- Settles O7, by `nlt_toNat`. -/
theorem nltWrapsThenReduces : Obligations.NltWrapsThenReduces := by
  refine ⟨fun prime v => ?_, nlt_zero_prime, by decide⟩
  rw [nlt_toNat, BitVec.toNat_mul]
  rfl

/-! ### Properties of NLT (R67) -/

/-- Rotation commutes with complement. -/
theorem rotr_not (v : U128) {n : Nat} (hn : n ≤ 127) : rotr (~~~v) n = ~~~rotr v n := by
  apply BitVec.eq_of_getLsbD_eq
  intro k hk
  have hmod : (k + n) % 128 < wordBits := Nat.mod_lt _ (by decide)
  simp only [getLsbD_rotr _ hn hk, BitVec.getLsbD_not, hk, hmod]

/-- The two complements cancel in v ^ rotr(v, 23). -/
theorem nlt_not (prime v : U128) : nlt prime (~~~v) = nlt prime v := by
  apply nlt_congr
  rw [rotr_not v (show nltRotation ≤ 127 by decide), ← BitVec.not_xor_left, ← BitVec.not_xor_right, BitVec.not_not]

/-- A word that is its own rotation by n repeats its bits at every multiple of n. -/
theorem getLsbD_add_mul_of_rotr_eq {v : U128} {n : Nat} (hn : n ≤ 127) (h : rotr v n = v) (j k : Nat) :
    v.getLsbD ((k + n * j) % 128) = v.getLsbD (k % 128) := by
  induction j with
  | zero => rfl
  | succ j ih =>
    calc v.getLsbD ((k + n * (j + 1)) % 128)
        = v.getLsbD (((k + n * j) % 128 + n) % 128) := by rw [Nat.mod_add_mod, Nat.mul_succ, Nat.add_assoc]
      _ = (rotr v n).getLsbD ((k + n * j) % 128) := (getLsbD_rotr v hn (Nat.mod_lt _ (by decide))).symm
      _ = v.getLsbD (k % 128) := by rw [h, ih]

/-- 23 is odd, so its multiples reach every bit: with 23 * 39 = 1 modulo 128, bit k is 39 * k rotations from bit 0. -/
theorem getLsbD_eq_getLsbD_zero_of_rotr_eq {v : U128} (h : rotr v nltRotation = v) {k : Nat} (hk : k < 128) :
    v.getLsbD k = v.getLsbD 0 := by
  have hreach : (0 + nltRotation * (39 * k)) % 128 = k := by unfold nltRotation; omega
  have h0 := getLsbD_add_mul_of_rotr_eq (show nltRotation ≤ 127 by decide) h (39 * k) 0
  rwa [hreach] at h0

/-- Only the words whose bits are all equal are their own rotation by 23. -/
theorem rotr_nltRotation_eq_self_iff (v : U128) : rotr v nltRotation = v ↔ v = 0 ∨ v = BitVec.allOnes 128 := by
  constructor
  · intro h
    cases hbit : v.getLsbD 0 with
    | false =>
      refine .inl (BitVec.eq_of_getLsbD_eq fun k hk => ?_)
      rw [getLsbD_eq_getLsbD_zero_of_rotr_eq h hk, hbit, BitVec.ofNat_eq_ofNat, BitVec.getLsbD_zero]
    | true =>
      refine .inr (BitVec.eq_of_getLsbD_eq fun k hk => ?_)
      rw [getLsbD_eq_getLsbD_zero_of_rotr_eq h hk, hbit, BitVec.getLsbD_allOnes, decide_eq_true hk]
  · rintro (rfl | rfl) <;> decide

theorem xor_rotr_eq_zero_iff (v : U128) : v ^^^ rotr v nltRotation = 0 ↔ v = 0 ∨ v = BitVec.allOnes 128 := by
  rw [← rotr_nltRotation_eq_self_iff, eq_comm (a := rotr v nltRotation)]
  exact BitVec.xor_eq_zero_iff

theorem nlt_eq_zero_of_xor_rotr {prime v : U128} (h : v ^^^ rotr v nltRotation = 0) : nlt prime v = 0 := by
  simp [nlt, h]

/-- A word is its two halves, the high one 2^64 times. -/
theorem toNat_eq_halves (v : U128) :
    v.toNat = 2 ^ 64 * (v.extractLsb' 64 64).toNat + (v.extractLsb' 0 64).toNat := by
  have hv : v.toNat < 2 ^ 128 := v.isLt
  simp only [BitVec.extractLsb'_toNat, Nat.shiftRight_eq_div_pow]
  omega

/-- 2^64 is 1 modulo 2^64 - 1, so the halves may be added (R67 (d)). -/
theorem toNat_mod_nltModulus (v : U128) :
    v.toNat % nltModulus = ((v.extractLsb' 64 64).toNat + (v.extractLsb' 0 64).toNat) % nltModulus := by
  rw [toNat_eq_halves, nltModulus]
  omega

/-- An NLT result is a remainder by 2^64 - 1, so it is never 2^64 - 1 itself. -/
theorem nlt_le (prime v : U128) : (nlt prime v).toNat ≤ 2 ^ 64 - 2 := by
  rw [nlt_toNat]
  exact Nat.le_pred_of_lt (Nat.mod_lt _ (by decide))

theorem nlt_eq_of_mod_eq {prime v v' : U128}
    (h : ((v ^^^ rotr v nltRotation) * prime).toNat % nltModulus =
      ((v' ^^^ rotr v' nltRotation) * prime).toNat % nltModulus) : nlt prime v = nlt prime v' :=
  BitVec.eq_of_toNat_eq (by rw [nlt_toNat, nlt_toNat, h])

/-- Settles O8, property by property. -/
theorem nltProperties : Obligations.NltProperties := fun prime v =>
  have hconst (w : U128) (hw : w = 0 ∨ w = BitVec.allOnes 128) : nlt prime w = 0 :=
    nlt_eq_zero_of_xor_rotr ((xor_rotr_eq_zero_iff w).2 hw)
  ⟨⟨nlt_le prime v, nlt_high prime v⟩, nlt_not prime v,
    ⟨xor_rotr_eq_zero_iff v, hconst _ (.inl rfl), hconst _ (.inr rfl)⟩,
    toNat_mod_nltModulus v, fun _ => nlt_eq_of_mod_eq, by decide, by decide⟩

/-! ### StateMixer -/

/-- Words 0, 1 and 2 XOR with a neighbour that no step has written yet (R68). -/
theorem stateMixer_get_of_ne_three (prime : U128) (s : HashState) (m : U128) (r : Fin roundCount) {i : Fin wordCount}
    (hi : i ≠ 3) : (stateMixer prime s m r).get i =
      nlt prime (rotl ((s.get i ^^^ m) + prime) (rotAmount r i)) ^^^ s.get (i + 1) := by
  rw [stateMixer_eq]
  match i with
  | 0 | 1 | 2 => simp [mixStep_get_ne, mixStep_get_self]
  | 3 => exact absurd rfl hi

/-- Word 3 XORs with the new word 0 (R69). -/
theorem stateMixer_get_three (prime : U128) (s : HashState) (m : U128) (r : Fin roundCount) :
    (stateMixer prime s m r).get 3 =
      nlt prime (rotl ((s.get 3 ^^^ m) + prime) (rotAmount r 3)) ^^^ (stateMixer prime s m r).get 0 := by
  rw [stateMixer_eq, mixStep_get_self]
  simp [mixStep_get_ne]

/-- XORing an NLT result leaves the high half alone. -/
theorem nlt_xor_high (prime x v : U128) : (nlt prime x ^^^ v).extractLsb' 64 64 = v.extractLsb' 64 64 := by
  simp [BitVec.extractLsb'_xor]

theorem stateMixer_high_of_ne_three (prime : U128) (s : HashState) (m : U128) (r : Fin roundCount) {i : Fin wordCount}
    (hi : i ≠ 3) : ((stateMixer prime s m r).get i).extractLsb' 64 64 = (s.get (i + 1)).extractLsb' 64 64 := by
  rw [stateMixer_get_of_ne_three prime s m r hi, nlt_xor_high]

theorem stateMixer_high_three (prime : U128) (s : HashState) (m : U128) (r : Fin roundCount) :
    ((stateMixer prime s m r).get 3).extractLsb' 64 64 = (s.get 1).extractLsb' 64 64 := by
  rw [stateMixer_get_three, nlt_xor_high, stateMixer_high_of_ne_three prime s m r (by decide)]
  rfl

/-- Settles O10: NLT results have a zero high half, so only the neighbours' high halves remain. -/
theorem stateMixerCopiesHighHalves : Obligations.StateMixerCopiesHighHalves := fun prime s m r =>
  ⟨stateMixer_high_of_ne_three prime s m r (by decide), stateMixer_high_of_ne_three prime s m r (by decide),
    stateMixer_high_of_ne_three prime s m r (by decide), stateMixer_high_three prime s m r⟩

/-- Settles O9, word by word; the rule's example by evaluation. -/
theorem stateMixerReadsCurrentNeighbour : Obligations.StateMixerReadsCurrentNeighbour :=
  ⟨by decide, fun prime s m r =>
    ⟨stateMixer_get_of_ne_three prime s m r (by decide), stateMixer_get_of_ne_three prime s m r (by decide),
      stateMixer_get_of_ne_three prime s m r (by decide), stateMixer_get_three prime s m r⟩⟩

end Sys2Proof.Machine

/-! Proofs for 41_accumulator.md: the inputs of a unit, the contribution of a byte and its high halves, the parity of a
message, the commands INIT and ABSORB and their protocol, the commands of a whole message, and the invariant of ACC's
high halves. -/

namespace Sys2Proof.Machine

/-! ### The inputs of a unit -/

/-- The masked base word is its low byte: bits 127:8 are 0 (R71). -/
theorem and_saltMask_high (v : U128) : (v &&& saltMask).extractLsb' 8 120 = 0 := by
  rw [BitVec.extractLsb'_and, show saltMask.extractLsb' 8 120 = 0 by decide, BitVec.ofNat_eq_ofNat, BitVec.and_zero]

theorem and_saltMask_low (v : U128) : (v &&& saltMask).extractLsb' 0 8 = v.extractLsb' 0 8 := by
  rw [BitVec.extractLsb'_and, show saltMask.extractLsb' 0 8 = BitVec.allOnes 8 by decide, BitVec.and_allOnes]

theorem dynamicSalt_high (prime : U128) (base : HashState) (r : Fin roundCount) :
    (dynamicSalt prime base r).extractLsb' 8 120 = (BitVec.ofNat wordBits r.val + prime).extractLsb' 8 120 := by
  rw [dynamicSalt, BitVec.extractLsb'_xor, and_saltMask_high, BitVec.ofNat_eq_ofNat, BitVec.xor_zero]

theorem dynamicSalt_low (prime : U128) (base : HashState) (r : Fin roundCount) :
    (dynamicSalt prime base r).extractLsb' 0 8 =
      (BitVec.ofNat wordBits r.val + prime).extractLsb' 0 8 ^^^ (base.get (saltWord r)).extractLsb' 0 8 := by
  rw [dynamicSalt, BitVec.extractLsb'_xor, and_saltMask_low]

theorem mixedByte_toNat (prime : U128) (base : HashState) (r : Fin roundCount) (b : Byte) :
    (mixedByte prime base r b).toNat = (b.toNat + (dynamicSalt prime base r).toNat) % 2 ^ 128 := by
  rw [mixedByte, BitVec.toNat_add, BitVec.toNat_setWidth_of_le (by decide)]

/-- Settles O11. -/
theorem unitInputs : Obligations.UnitInputs := fun prime base r b =>
  ⟨dynamicSalt_high prime base r, dynamicSalt_low prime base r, mixedByte_toNat prime base r b, rfl⟩

/-! ### The contribution of a byte -/

/-- Word i of C(b) (R74). -/
theorem contribution_get (p : Params) (b : Byte) (i : Fin wordCount) :
    (contribution p b).get i =
      (allRounds.map fun r => (unitComputation p.prime p.iv r b).get i).foldr (· ^^^ ·) 0 := by
  rw [contribution, get_xorAll, unitResults, List.map_map]
  rfl

/-- Settles O12. -/
theorem contributionIsXorOf256Units : Obligations.ContributionIsXorOf256Units := fun p b =>
  ⟨contribution_get p b, unitResults_allRounds_length p b⟩

/-- The units may be merged in any order (R77, R80). -/
theorem xorAll_unitResults_of_perm {order : List (Fin roundCount)} (h : order.Perm allRounds) (p : Params) (b : Byte) :
    xorAll (unitResults p order b) = contribution p b := xorAll_perm (h.map _)

/-- Settles O13: XOR over a list does not see the order. -/
theorem unitOrderIsNotObservable : Obligations.UnitOrderIsNotObservable := by
  intro order h
  refine ⟨xorAll_unitResults_of_perm h, fun d s => ?_⟩
  rw [exec_absorb, xorAll_unitResults_of_perm h]
  rfl

/-- The word whose high half word i of a StateMixer result has: word 3 reads the new word 0, which has the high half of
word 1 (R70). -/
def highSource (i : Fin wordCount) : Fin wordCount := if i = 3 then 1 else i + 1

theorem stateMixer_high (prime : U128) (s : HashState) (m : U128) (r : Fin roundCount) (i : Fin wordCount) :
    ((stateMixer prime s m r).get i).extractLsb' 64 64 = (s.get (highSource i)).extractLsb' 64 64 := by
  unfold highSource
  split
  · next h => rw [h, stateMixer_high_three]
  · next h => exact stateMixer_high_of_ne_three prime s m r h

/-- The high halves of a unit's result are its base's, for every round and byte. -/
theorem unitComputation_high (prime : U128) (base : HashState) (r : Fin roundCount) (b : Byte) (i : Fin wordCount) :
    ((unitComputation prime base r b).get i).extractLsb' 64 64 = (base.get (highSource i)).extractLsb' 64 64 :=
  stateMixer_high _ _ _ _ _

/-- The 256 units of a byte have one high half in word i, and an even number of it cancels (R82). -/
theorem contribution_high (p : Params) (b : Byte) (i : Fin wordCount) :
    ((contribution p b).get i).extractLsb' 64 64 = 0 := by
  have hunits : ∀ u ∈ unitResults p allRounds b,
      (u.get i).extractLsb' 64 64 = (p.iv.get (highSource i)).extractLsb' 64 64 := by
    intro u hu
    obtain ⟨r, -, rfl⟩ := List.mem_map.1 hu
    exact unitComputation_high p.prime p.iv r b i
  rw [contribution, xorAll_high hunits, unitResults_allRounds_length]
  rfl

/-- Settles O14. -/
theorem contributionHasNoHighHalf : Obligations.ContributionHasNoHighHalf := fun p b =>
  ⟨fun r => have hunit := unitComputation_high p.prime p.iv r b
    ⟨hunit 0, hunit 1, hunit 2, hunit 3⟩, contribution_high p b⟩

/-! ### The parity of a message -/

/-- The byte values that occur an odd number of times in a message (R79). -/
def oddBytes (bytes : List Byte) : List Byte :=
  ((List.finRange 256).map fun n => BitVec.ofNat 8 n.val).filter fun b => bytes.count b % 2 = 1

theorem mem_oddBytes (bytes : List Byte) (b : Byte) : b ∈ oddBytes bytes ↔ bytes.count b % 2 = 1 := by
  have hall : b ∈ (List.finRange 256).map fun n => BitVec.ofNat 8 n.val :=
    List.mem_map.2 ⟨b.toFin, List.mem_finRange _, by simp⟩
  rw [oddBytes, List.mem_filter, decide_eq_true_iff]
  exact and_iff_right hall

theorem nodup_oddBytes (bytes : List Byte) : (oddBytes bytes).Nodup := by
  refine ((List.nodup_finRange 256).map fun m n h => ?_).filter _
  have hval := congrArg BitVec.toNat h
  simp only [BitVec.toNat_ofNat] at hval
  omega

/-- A byte of even count, absorbed once more, is one more odd byte. -/
theorem oddBytes_cons_of_even {bytes : List Byte} {b : Byte} (h : bytes.count b % 2 = 0) :
    (oddBytes (b :: bytes)).Perm (b :: oddBytes bytes) := by
  have hb : b ∉ oddBytes bytes := by rw [mem_oddBytes]; omega
  refine (List.perm_ext_iff_of_nodup (nodup_oddBytes _) ((nodup_oddBytes bytes).cons hb)).2 fun x => ?_
  rw [List.mem_cons, mem_oddBytes, mem_oddBytes]
  by_cases hx : x = b
  · exact iff_of_true (by rw [hx, List.count_cons_self]; omega) (.inl hx)
  · simp [hx, List.count_cons_of_ne (Ne.symm hx)]

/-- A byte absorbed twice changes no parity. -/
theorem oddBytes_cons_cons (b : Byte) (bytes : List Byte) : oddBytes (b :: b :: bytes) = oddBytes bytes := by
  refine List.filter_congr fun x _ => ?_
  by_cases hx : x = b
  · rw [hx, List.count_cons_self, List.count_cons_self, Nat.add_assoc, Nat.add_mod_right]
  · simp [List.count_cons_of_ne (Ne.symm hx)]

/-- XOR over a message keeps one term for every odd byte: a term that meets its equal is cancelled. -/
theorem xorAll_map_oddBytes (f : Byte → HashState) (bytes : List Byte) :
    xorAll (bytes.map f) = xorAll ((oddBytes bytes).map f) := by
  induction bytes with
  | nil => simp [oddBytes]
  | cons b bytes ih =>
    rw [List.map_cons, xorAll_cons, ih]
    rcases Nat.mod_two_eq_zero_or_one (bytes.count b) with heven | hodd
    · exact (xorAll_perm ((oddBytes_cons_of_even heven).map f)).symm
    · have heven : (b :: bytes).count b % 2 = 0 := by rw [List.count_cons_self]; omega
      have hperm := oddBytes_cons_of_even heven
      rw [oddBytes_cons_cons] at hperm
      rw [xorAll_perm (hperm.map f), List.map_cons, xorAll_cons, HashState.xor_cancel_left]

/-- Accumulate does not depend on the order of the bytes (R78, R79). -/
theorem accumulate_perm (p : Params) {bytes bytes' : List Byte} (h : bytes.Perm bytes') :
    accumulate p bytes = accumulate p bytes' := by
  rw [accumulate, accumulate, xorAll_perm (h.map _)]

/-- A byte absorbed twice contributes nothing (R79). -/
theorem accumulate_cons_cons (p : Params) (b : Byte) (bytes : List Byte) :
    accumulate p (b :: b :: bytes) = accumulate p bytes := by
  rw [accumulate_cons, accumulate_cons, HashState.xor_xor_cancel]

/-- Settles O15. -/
theorem accumulateSeesOnlyParity : Obligations.AccumulateSeesOnlyParity := fun p bytes =>
  ⟨congrArg p.iv.xor (xorAll_map_oddBytes (contribution p) bytes), fun _ => accumulate_perm p,
    fun b => accumulate_cons_cons p b bytes⟩

/-! ### The protocol of INIT and ABSORB -/

/-- A command that CoreComplete performs, written to an idle block, becomes pending and changes nothing else (R90). -/
theorem step_cmd_write_accepted {s : State} {w : Word32} {rest : List HostOp} {i : Instr} {c : Pending}
    (h : HostIssues (.write .w32 0x08 w) rest s) (hr : s.phase = .running) (hb : s.busy = false)
    (hd : decode w = .command i) (hc : pendingOf i = some c) :
    step s = .next { s.issued rest with pending := some c } := by
  rw [step_cmd_write h hr, writeCommand_accepted (by simpa using hb) hd hc]
  rfl

/-- Any word written to CMD of a busy block only sets ERR_OVERRUN (R103). -/
theorem step_cmd_write_overrun {s : State} {w : Word32} {rest : List HostOp}
    (h : HostIssues (.write .w32 0x08 w) rest s) (hr : s.phase = .running) (hb : s.busy = true) :
    step s = .next { s.issued rest with errOverrun := true } := by
  rw [step_cmd_write h hr, writeCommand_busy w (by simpa using hb)]
  rfl

theorem decode_init_of_mask {w : Word32} (hw : w &&& 0xFFFF00FF = 0x00000001) : decode w = .command .init :=
  (decode_eq_command_iff_of_ne_absorb w (i := .init) nofun).2 hw

theorem decode_absorb_of_mask {w : Word32} (hw : w &&& 0xFFFF00FF = 0x00000002) :
    decode w = .command (.absorb (dataField w)) := (decode_eq_absorb_iff w _).2 ⟨hw, rfl⟩

/-- Settles O17: the decoder's row, the command's effect, and the three steps of the protocol. -/
theorem initLoadsIv : Obligations.InitLoadsIv :=
  ⟨fun _ => decode_init_of_mask, exec_init,
    fun _ _ _ hw h hr hb => step_cmd_write_accepted h hr hb (decode_init_of_mask hw) rfl,
    fun _ _ _ _ => step_cmd_write_overrun, fun _ => step_completes⟩

/-- A completing ABSORB merges its byte and counts it (R77, R91). -/
theorem step_completes_absorb {s : State} {d : Byte} (h : CoreCompletes (.absorb d) s) :
    step s = .next { s.takeTurn with
      acc := s.acc.xor (contribution Config.params d), len := s.len + 1, pending := none } := by
  rw [step_completes h, ← takeTurn_acc s, ← takeTurn_len s]
  rfl

/-- ABSORB XORs each word of ACC with the 256 UnitResults of its byte (R74, R77). -/
theorem mergeByte_acc_get (p : Params) (d : Byte) (s : State) (i : Fin wordCount) :
    (s.mergeByte p d).acc.get i = s.acc.get i ^^^
      (allRounds.map fun r => (unitComputation p.prime p.iv r d).get i).foldr (· ^^^ ·) 0 := by
  rw [mergeByte_acc, HashState.get_xor, contribution_get]

/-- Settles O18: the decoder's row, the command's effect, and the three steps of the protocol. -/
theorem absorbMergesAllUnits : Obligations.AbsorbMergesAllUnits :=
  ⟨fun _ => decode_absorb_of_mask,
    fun d s => ⟨_, exec_absorb d s, mergeByte_acc_get _ d s, BitVec.toNat_add _ _, rfl, rfl⟩,
    fun _ _ _ hw h hr hb => step_cmd_write_accepted h hr hb (decode_absorb_of_mask hw) rfl,
    fun _ _ _ _ => step_cmd_write_overrun, fun _ _ => step_completes_absorb⟩

/-! ### The commands of a message -/

/-- A command that answers a next state is followed by the rest from there. -/
theorem execAll_cons {i : Instr} {s t : State} (h : exec i s = .next t) (rest : List Instr) :
    execAll (i :: rest) s = execAll rest t := by
  rw [execAll, h]; rfl

theorem execAll_append {l : List Instr} {s t : State} (h : execAll l s = .next t) (m : List Instr) :
    execAll (l ++ m) s = execAll m t := by
  induction l generalizing s with
  | nil => cases h; rfl
  | cons i l ih =>
    obtain ⟨u, hu⟩ := exec_next i s
    rw [execAll_cons hu] at h
    rw [List.cons_append, execAll_cons hu, ih h]

/-- The ABSORBs of a list of bytes merge all their contributions and count them modulo 2^32 (R77, R78). -/
theorem execAll_absorbs (bytes : List Byte) (s : State) :
    execAll (bytes.map .absorb) s = .next { s with
      acc := s.acc.xor (xorAll (bytes.map (contribution Config.params))),
      len := s.len + BitVec.ofNat 32 bytes.length } := by
  induction bytes generalizing s with
  | nil => simp [execAll]
  | cons b bytes ih =>
    rw [List.map_cons, execAll_cons (exec_absorb b s), ih, mergeByte_acc, mergeByte_len, HashState.xor_assoc,
      BitVec.add_assoc, List.length_cons, Nat.add_comm bytes.length 1, BitVec.ofNat_add]
    rfl

/-- Settles O23: the two contributions cancel. -/
theorem absorbTwiceCancels : Obligations.AbsorbTwiceCancels := by
  intro d s
  have hcancel : s.acc.xor (xorAll ([d, d].map (contribution Config.params))) = s.acc := by simp
  exact (execAll_absorbs [d, d] s).trans (by rw [hcancel]; rfl)

/-- INIT and the ABSORBs of a message leave Accumulate(B) in ACC (R75, R76, R77). -/
theorem execAll_messageCommands (bytes : List Byte) (s : State) :
    execAll (messageCommands bytes) s =
      .next { s with acc := accumulate Config.params bytes, len := BitVec.ofNat 32 bytes.length } := by
  rw [messageCommands, execAll_cons (exec_init s), execAll_absorbs, loadIv_len, loadIv_acc, BitVec.ofNat_eq_ofNat,
    BitVec.zero_add]
  rfl

/-- Settles O24. -/
theorem messageAccumulates : Obligations.MessageAccumulates := by
  intro bytes s
  have hmessage := execAll_messageCommands bytes s
  refine ⟨hmessage, ?_⟩
  rw [execAll_append hmessage, execAll_cons (exec_final _)]
  rfl

/-! ### The high halves of ACC (R82) -/

/-- Everything a step can do to ACC: keep it, load the IV, or merge the contribution of a byte. -/
theorem step_acc_cases {s t : State} (h : step s = .next t) :
    t.acc = s.acc ∨ t.acc = Config.iv ∨ ∃ d, t.acc = s.acc.xor (contribution Config.params d) := by
  rcases step_block_cases h with ⟨c, -, rfl⟩ | ⟨-, rest, phase, rfl⟩ | ⟨w, rest, -, -, hw⟩ | ⟨ha, -⟩
  · cases c with
    | init => exact .inr (.inl rfl)
    | absorb d => exact .inr (.inr ⟨d, by simp [completed]⟩)
    | final => exact .inr (.inl rfl)
  · exact .inr (.inl rfl)
  · obtain ⟨ha, -, -⟩ := writeCommand_keeps_data hw
    exact .inl (by simpa using ha)
  · exact .inl ha

/-- Settles O50: what a step merges into ACC has no high half. -/
theorem highHalvesKeptByEveryStep : Obligations.HighHalvesKeptByEveryStep := by
  intro s t hs h i
  rcases step_acc_cases h with ha | ha | ⟨d, ha⟩
  · rw [ha, hs i]
  · rw [ha]
  · rw [ha, HashState.get_xor, BitVec.extractLsb'_xor, contribution_high, BitVec.ofNat_eq_ofNat, BitVec.xor_zero, hs i]

/-- Settles O51: reset loads the IV itself. -/
theorem highHalvesHoldAtReset : Obligations.HighHalvesHoldAtReset := fun _ => rfl

end Sys2Proof.Machine

/-! Proofs for 42_finalizer.md: the bytes of the digest, the command FINAL and its protocol, the digest of an even
message, and the digest registers as slices of ACC. -/

namespace Sys2Proof.Machine

/-! ### The bytes of the digest -/

/-- Digest byte 8i + k is byte k of word i (R85). -/
theorem finalize_byte (s : HashState) (i : Fin 4) (k : Fin 8) :
    (finalize s)[8 * i.val + k.val]'(by show _ < 32; omega) = byteOfU128 (s.get i) k.val := by
  have hword : (8 * i.val + k.val) / keepBytes = i.val := by unfold keepBytes; omega
  have hbyte : (8 * i.val + k.val) % keepBytes = k.val := by unfold keepBytes; omega
  simp only [finalize_getElem, hword, hbyte]

/-- The bytes that the digest keeps lie in the low half of a word. -/
theorem byteOfU128_eq_low_half (v : U128) {k : Nat} (hk : k < keepBytes) :
    byteOfU128 v k = (v.extractLsb' 0 64).extractLsb' (8 * k) 8 := by
  unfold keepBytes at hk
  rw [extract_extract v (show 8 * k + 8 ≤ 64 by omega), Nat.zero_add]
  rfl

/-- Bits 127:64 of every word are dropped (R85). -/
theorem finalize_congr {s s' : HashState}
    (h : ∀ i : Fin wordCount, (s.get i).extractLsb' 0 64 = (s'.get i).extractLsb' 0 64) : finalize s = finalize s' := by
  refine Vector.ext fun n hn => ?_
  have hk : n % keepBytes < keepBytes := Nat.mod_lt _ (by decide)
  rw [finalize_getElem, finalize_getElem, byteOfU128_eq_low_half _ hk, byteOfU128_eq_low_half _ hk, h]

/-- Settles O16. -/
theorem finalizeTakesLowHalves : Obligations.FinalizeTakesLowHalves := ⟨finalize_byte, fun _ _ => finalize_congr⟩

/-! ### FINAL -/

theorem decode_final_of_mask {w : Word32} (hw : w &&& 0xFFFF00FF = 0x00000003) : decode w = .command .final :=
  (decode_eq_command_iff_of_ne_absorb w (i := .final) nofun).2 hw

/-- A completing FINAL takes the digest from ACC before it (R86, R91). -/
theorem step_completes_final {s : State} (h : CoreCompletes .final s) :
    step s = .next { s.takeTurn with digest := finalize s.acc, acc := Config.iv, len := 0, pending := none } := by
  rw [step_completes h, ← takeTurn_acc s]
  rfl

/-- Settles O19: the decoder's row, the command's effect, and the three steps of the protocol. -/
theorem finalProducesDigest : Obligations.FinalProducesDigest :=
  ⟨fun _ => decode_final_of_mask, exec_final,
    fun _ _ _ hw h hr hb => step_cmd_write_accepted h hr hb (decode_final_of_mask hw) rfl,
    fun _ _ _ _ => step_cmd_write_overrun, fun _ => step_completes_final⟩

/-! ### Even messages -/

theorem oddBytes_eq_nil {bytes : List Byte} (h : ∀ b, bytes.count b % 2 = 0) : oddBytes bytes = [] :=
  List.eq_nil_iff_forall_not_mem.2 fun b => by rw [mem_oddBytes, h b]; decide

/-- With no odd byte nothing is merged into the IV (R79, R89). -/
theorem accumulate_of_even (p : Params) {bytes : List Byte} (h : ∀ b, bytes.count b % 2 = 0) :
    accumulate p bytes = p.iv := by
  rw [accumulate, xorAll_map_oddBytes, oddBytes_eq_nil h, List.map_nil, xorAll_nil, HashState.xor_zero]

/-- Settles O25: FINAL finds the IV in ACC. -/
theorem evenMessagesHashLikeTheEmptyOne : Obligations.EvenMessagesHashLikeTheEmptyOne := by
  intro bytes s h
  rw [(messageAccumulates bytes s).2, accumulate_of_even _ h]
  rfl

/-! ### The digest registers -/

/-- Two words with the same bytes are the same word (R38). -/
theorem word32_ext_bytes {v w : Word32}
    (h : ∀ j : Fin 4, v.extractLsb' (8 * j.val) 8 = w.extractLsb' (8 * j.val) 8) : v = w := by
  apply BitVec.eq_of_getLsbD_eq
  intro n hn
  have hbit := congrArg (·.getLsbD (n % 8)) (h ⟨n / 8, by omega⟩)
  simpa [Nat.mod_lt n, Nat.div_add_mod] using hbit

/-- DIGEST_W(2i) and DIGEST_W(2i+1) of a finalized state are the two low slices of word i: the digest's byte order and
the registers' are the same (R39, R85, R87). -/
theorem digestWord_finalize (s : HashState) (i : Fin 4) (h : Fin 2) :
    digestWord (finalize s) ⟨2 * i.val + h.val, by omega⟩ =
      (s.get i).extractLsb' (32 * h.val) 32 := by
  refine word32_ext_bytes fun j => ?_
  have hindex : 4 * (2 * i.val + h.val) + j.val = 8 * i.val + (4 * h.val + j.val) := by omega
  have hbit : 8 * (4 * h.val + j.val) = 32 * h.val + 8 * j.val := by omega
  rw [extract_digestWord, extract_extract _ (show 8 * j.val + 8 ≤ 32 by omega), ← hbit]
  simp only [hindex]
  exact finalize_byte s i ⟨4 * h.val + j.val, by omega⟩

/-- Settles O26: the registers ACC_i_0 and ACC_i_1 are the same slices of ACC. -/
theorem digestWordsAreAccSlices : Obligations.DigestWordsAreAccSlices := fun s =>
  ⟨_, exec_final s, fun i =>
    have hlow := digestWord_finalize s.acc i 0
    have hnext := digestWord_finalize s.acc i 1
    ⟨hlow, hnext, hlow, hnext⟩⟩

end Sys2Proof.Machine

/-! Proofs for 43_control_and_host.md: the host that keeps to the bus's accesses, the commands without datapath effect,
what a CMD write and CoreComplete do with a decoded command, what a read returns, and the sequence for AdvancedHash. -/

namespace Sys2Proof.Machine

/-! ### A host in the domain of R97 is never stopped -/

/-- A write of a command word answers a next state in every state: the block never stops (R106). -/
theorem writeCommand_next (w : Word32) (s : State) : ∃ t, writeCommand w s = .next t := by
  by_cases hp : s.pending = none
  · cases hd : decode w with
    | illegal why => exact ⟨_, writeCommand_illegal hp hd⟩
    | command i =>
      cases hc : pendingOf i with
      | some c => exact ⟨_, writeCommand_accepted hp hd hc⟩
      | none => rw [writeCommand_immediate hp hd hc]; exact exec_next i s
  · exact ⟨_, writeCommand_busy w hp⟩

theorem writeRegister_next (r : Register) (v : Word32) (s : State) : ∃ t, writeRegister r v s = .next t := by
  by_cases h : s.phase = .held ∨ r ≠ .cmd
  · exact ⟨s, writeRegister_ignored v h⟩
  · obtain ⟨hheld, rfl⟩ : s.phase ≠ .held ∧ r = .cmd := by simpa using h
    rw [writeRegister_cmd v hheld]
    exact writeCommand_next v s

theorem pollStatus_next (s : State) : ∃ t, pollStatus s = .next t := by
  unfold pollStatus
  split
  · exact ⟨_, rfl⟩
  · exact ⟨_, rfl⟩

/-- After the first reset an operation that the bus defines is never refused (R36, R119). -/
theorem performHostOp_next {op : HostOp} {s : State} (hlegal : hostOpLegal op = true) (hs : s.phase ≠ .unknown) :
    ∃ t, performHostOp op s = .next t := by
  cases op with
  | reset => exact ⟨_, rfl⟩
  | holdReset => exact ⟨_, rfl⟩
  | releaseReset => exact ⟨{ s with phase := .running }, by simp [performHostOp, hostOpLegal, hs]⟩
  | write width off v =>
    obtain ⟨rfl, haligned⟩ := (accessLegal_eq_true width off).1 hlegal
    rw [perform_write v haligned hs]
    exact writeRegister_next _ v s
  | read width off =>
    obtain ⟨rfl, haligned⟩ := (accessLegal_eq_true width off).1 hlegal
    exact ⟨_, perform_read haligned hs⟩
  | wait =>
    rw [perform_wait hs]
    exact pollStatus_next s

/-- A write of a command word changes neither the reset input nor what the host has still to issue. -/
theorem writeCommand_keeps_host {s t : State} {w : Word32} (h : writeCommand w s = .next t) :
    t.phase = s.phase ∧ t.program = s.program := by
  rcases writeCommand_cases h with ⟨-, rfl⟩ | ⟨-, -, rfl⟩ | ⟨-, i, c, -, -, rfl⟩ | ⟨-, -, rfl⟩ | ⟨-, -, rfl⟩ <;>
    simp

/-- No operation takes rst_n back before the first reset, and only a busy poll gives an operation, itself, back to the
program. -/
theorem performHostOp_keeps_inDomain {s t : State} {op : HostOp} (hs : InDomain s)
    (h : performHostOp op s = .next t) : InDomain t := by
  obtain ⟨hphase, hprogram⟩ := hs
  rcases performHostOp_cases h with ⟨rfl, rfl⟩ | ⟨rfl, rfl⟩ | ⟨rfl, -, rfl⟩ | ⟨w, rfl, -, hw⟩ |
    ⟨off, v, rfl, -, -, rfl⟩ | ⟨off, rfl, -, -, rfl⟩ | ⟨rfl, -, ⟨-, rfl⟩ | ⟨-, rfl⟩⟩
  · exact ⟨nofun, hprogram⟩
  · exact ⟨nofun, hprogram⟩
  · exact ⟨nofun, hprogram⟩
  · obtain ⟨hp, hprog⟩ := writeCommand_keeps_host hw
    exact ⟨hp ▸ hphase, hprog ▸ hprogram⟩
  · exact ⟨hphase, hprogram⟩
  · exact ⟨by simpa, by simpa⟩
  · exact ⟨by simpa, List.forall_mem_cons.2 ⟨rfl, hprogram⟩⟩
  · exact ⟨by simpa, by simpa⟩

/-- The host of an in-domain state issues an operation that the bus defines, and the rest of its program is in domain
too. -/
theorem inDomain_issued {s : State} {op : HostOp} {rest : List HostOp} (hs : InDomain s) (h : HostIssues op rest s) :
    hostOpLegal op = true ∧ InDomain (s.issued rest) := by
  obtain ⟨hphase, hprogram⟩ := hs
  rw [h.2] at hprogram
  obtain ⟨hlegal, hrest⟩ := List.forall_mem_cons.1 hprogram
  exact ⟨hlegal, by simpa, hrest⟩

/-- Settles O52, by who moves: the core, the host with an operation, or the host with none. -/
theorem inDomainRunsNeverStop : Obligations.InDomainRunsNeverStop := by
  intro s hs
  rcases step_trichotomy s with ⟨c, hc⟩ | ⟨op, rest, hissues⟩ | ⟨hm, hdone⟩
  · exact ⟨_, step_completes hc, by simpa [InDomain] using hs⟩
  · obtain ⟨hlegal, hissued⟩ := inDomain_issued hs hissues
    obtain ⟨t, ht⟩ := performHostOp_next hlegal hissued.1
    rw [step_of_hostIssues hissues]
    exact ⟨t, ht, performHostOp_keeps_inDomain hissued ht⟩
  · exact ⟨_, step_of_host_done hm hdone, by simpa [InDomain] using hs⟩

/-! ### NOP and CLRERR -/

theorem decode_nop_of_mask {w : Word32} (hw : w &&& 0xFFFF00FF = 0x00000000) : decode w = .command .nop :=
  (decode_eq_command_iff_of_ne_absorb w (i := .nop) nofun).2 hw

theorem decode_clrerr_of_mask {w : Word32} (hw : w &&& 0xFFFF00FF = 0x00000004) : decode w = .command .clrerr :=
  (decode_eq_command_iff_of_ne_absorb w (i := .clrerr) nofun).2 hw

/-- NOP or CLRERR, written to CMD of an idle block, is performed within the write (R90). -/
theorem step_cmd_write_immediate {s : State} {w : Word32} {rest : List HostOp} {i : Instr}
    (h : HostIssues (.write .w32 0x08 w) rest s) (hr : s.phase = .running) (hb : s.busy = false)
    (hd : decode w = .command i) (hc : pendingOf i = none) : step s = exec i (s.issued rest) := by
  rw [step_cmd_write h hr, writeCommand_immediate (by simpa using hb) hd hc]

/-- Settles O20: the decoder's row, the command's effect, and the write while BUSY is 0 and 1. -/
theorem nopChangesNothing : Obligations.NopChangesNothing :=
  ⟨fun _ => decode_nop_of_mask, exec_nop,
    fun _ _ _ hw h hr hb => step_cmd_write_immediate h hr hb (decode_nop_of_mask hw) rfl,
    fun _ _ _ _ => step_cmd_write_overrun⟩

/-- Settles O21: the decoder's row, the command's effect, and the write while BUSY is 0 and 1. -/
theorem clrerrClearsBothFlags : Obligations.ClrerrClearsBothFlags :=
  ⟨fun _ => decode_clrerr_of_mask, exec_clrerr,
    fun _ _ _ hw h hr hb => step_cmd_write_immediate h hr hb (decode_clrerr_of_mask hw) rfl,
    fun _ _ _ _ => step_cmd_write_overrun⟩

/-! ### CoreComplete and the decoded command -/

/-- A completing command has its own effect, and beside that it only retires PENDING (R91). -/
theorem exec_toInstr (c : Pending) (s : State) :
    exec c.toInstr s = .next { completed c s with pending := s.pending } := by cases c <;> rfl

/-- Some order of turns lets the core move exactly where a command is pending out of reset. -/
theorem exists_turns_mover_eq_core (s : State) :
    (∃ turns, { s with turns := turns }.mover = .core) ↔ s.phase = .running ∧ s.pending ≠ none := by
  constructor
  · rintro ⟨turns, hm⟩
    obtain ⟨hr, hp, -⟩ := (mover_eq_core _).1 hm
    exact ⟨hr, hp⟩
  · rintro ⟨hr, hp⟩
    exact ⟨[.core], (mover_eq_core _).2 ⟨hr, hp, rfl⟩⟩

/-- Settles O30. -/
theorem coreCompletePerformsPending : Obligations.CoreCompletePerformsPending := by
  refine ⟨exists_turns_mover_eq_core, fun c s hc => ⟨_, step_completes hc, ?_, completed_pending c _⟩⟩
  rw [exec_toInstr, takeTurn_pending]

/-- Settles O32: what the write makes of the command, and that CoreComplete performs what is pending. -/
theorem cmdWriteThenCompletionRunsTheCommand : Obligations.CmdWriteThenCompletionRunsTheCommand := by
  intro s w rest i h hr hb hd
  refine ⟨step_cmd_write_immediate h hr hb hd, fun c hc => ⟨step_cmd_write_accepted h hr hb hd hc, fun u hu => ?_⟩⟩
  rw [step_of_coreCompletes hu, toInstr_of_pendingOf hc]
  rfl

/-! ### The placed command word (log 10) -/

/-- A table word that decodes is, as a 32-bit word, the word of that command. -/
theorem decode_of_decodeTableWord {nbits w : Nat} {i : Instr} (h : decodeTableWord nbits w = some i) :
    decode (BitVec.ofNat 32 (w % 2 ^ nbits)) = .command i := by
  rw [decodeTableWord, decodeBytes_bytesOfWord] at h
  cases hd : decode (BitVec.ofNat 32 (w % 2 ^ nbits)) with
  | command j => rw [hd] at h; cases h; rfl
  | illegal why => rw [hd] at h; cases h

theorem withCommandWord_of_accepted {s : State} {w : Word32} {i : Instr} {c : Pending} (hd : decode w = .command i)
    (hc : pendingOf i = some c) : s.withCommandWord w =
      { s with phase := .running, pending := some c, turns := .core :: s.turns } := by
  have hplaced : (decode w).toOption.bind pendingOf = some c := by rw [hd]; exact hc
  rw [State.withCommandWord, hplaced]

theorem withCommandWord_of_immediate {s : State} {w : Word32} {i : Instr} (hd : decode w = .command i)
    (hc : pendingOf i = none) : s.withCommandWord w =
      { s with phase := .running, pending := none, program := .write .w32 0x08 w :: s.program } := by
  have hplaced : (decode w).toOption.bind pendingOf = none := by rw [hd]; exact hc
  rw [State.withCommandWord, hplaced]
  rfl

/-- The step from the state in which a command's word is placed is the command's own effect. -/
theorem step_withCommandWord (s : State) {w : Word32} {i : Instr} (hd : decode w = .command i) :
    step (s.withCommandWord w) = exec i { s with phase := .running, pending := none } := by
  cases hc : pendingOf i with
  | some c =>
    rw [withCommandWord_of_accepted hd hc, ← toInstr_of_pendingOf hc, exec_toInstr, step_completes ⟨rfl, rfl⟩]
    cases c <;> rfl
  | none =>
    rw [withCommandWord_of_immediate hd hc]
    exact step_cmd_write_immediate ⟨rfl, rfl⟩ rfl rfl hd hc

/-- Settles O31. -/
theorem stepRunsTheDecodedCommand : Obligations.StepRunsTheDecodedCommand :=
  fun s _ _ _ h _ => step_withCommandWord s (decode_of_decodeTableWord h)

/-! ### What a read returns -/

/-- A read of a result while BUSY = 1 answers the next free value, drawn for this read (R44). -/
theorem step_read_free {s : State} {r : Register} {rest : List HostOp} (h : HostIssues (readReg r) rest s)
    (hr : s.phase = .running) (hbusy : s.busy = true) (hres : r.isResult = true) :
    step s = .next ((s.issued rest).drawOne.reply (Config.freeRead s.draws)) := by
  have hfree : (s.issued rest).readUnspecified r = true := by simp [State.readUnspecified, hbusy, hres]
  obtain ⟨hvalue, hafter⟩ := readValue_free hfree
  rw [step_of_hostIssues h, readReg, perform_read (offset_aligned r) (by simp [hr]), registerAt_offset, hvalue, hafter,
    issued_draws]

/-- A word's bytes side by side are its bytes shifted into their lanes (R38). -/
theorem wordOfBytes_eq_or (b0 b1 b2 b3 : Byte) : wordOfBytes b0 b1 b2 b3 =
    b0.setWidth 32 ||| b1.setWidth 32 <<< 8 ||| b2.setWidth 32 <<< 16 ||| b3.setWidth 32 <<< 24 := by
  ext n hn
  simp only [wordOfBytes, BitVec.getElem_or, BitVec.getElem_shiftLeft, BitVec.getElem_setWidth]
  grind

/-- The host's reply put behind the ones it has. -/
theorem issued_reply_eq (s : State) (rest : List HostOp) (v : Word32) :
    (s.issued rest).reply v = { s.issued rest with replies := s.replies ++ [v] } := by
  rw [State.reply, issued_replies]

/-- A register that holds no result reads exactly, whatever BUSY is (R94). -/
theorem step_read_register {s : State} {rest : List HostOp} (r : Register) (h : HostIssues (readReg r) rest s)
    (hr : s.phase = .running) (hres : r.isResult = false) :
    step s = .next { s.issued rest with replies := s.replies ++ [s.registerValue r] } := by
  rw [step_read_exact h hr (.inr hres), issued_reply_eq]

/-- A result register reads exactly while BUSY = 0, and answers a free value drawn for this read while BUSY = 1 (R44,
R94). -/
theorem step_read_result {s : State} {rest : List HostOp} (r : Register) (h : HostIssues (readReg r) rest s)
    (hr : s.phase = .running) (hres : r.isResult = true) :
    (s.busy = false → step s = .next { s.issued rest with replies := s.replies ++ [s.registerValue r] }) ∧
    (s.busy = true → step s =
      .next { s.issued rest with replies := s.replies ++ [Config.freeRead s.draws], draws := s.draws + 1 }) := by
  constructor
  · intro hb
    rw [step_read_exact h hr (.inl hb), issued_reply_eq]
  · intro hb
    rw [step_read_free h hr hb hres, State.drawOne, State.reply, issued_replies, issued_draws]

/-- A write at an aligned offset other than CMD's is ignored (R41). -/
theorem step_write_ignored {s : State} {rest : List HostOp} {off : Byte} {v : Word32}
    (h : HostIssues (.write .w32 off v) rest s) (hr : s.phase = .running) (ha : off.toNat % 4 = 0) (hoff : off ≠ 0x08) :
    step s = .next (s.issued rest) := by
  have hreg : registerAt off ≠ .cmd := mt (registerAt_eq_cmd off ha).1 hoff
  rw [step_of_hostIssues h, perform_write v ha (by simp [hr]), writeRegister_ignored v (.inr hreg)]

/-- Settles O38, register by register of the map (R35). -/
theorem hostReadReturns : Obligations.HostReadReturns := by
  refine ⟨fun s rest off v => step_write_ignored, fun s rest off h hr => ⟨?_, ?_, ?_, ?_, ?_, ?_, ?_, ?_⟩⟩
  · rintro rfl
    exact step_read_register .id h hr rfl
  · rintro rfl
    exact step_read_register .status h hr rfl
  · rintro rfl
    exact step_read_register .cmd h hr rfl
  · rintro rfl
    exact step_read_result .len h hr rfl
  · rintro k rfl
    exact step_read_register (.reserved k) h hr rfl
  · rintro k rfl
    rw [← wordOfBytes_eq_or]
    exact step_read_result (.digestW k) h hr rfl
  · rintro i k rfl
    exact step_read_result (.accSlice i k) h hr rfl
  · rintro k rfl
    exact step_read_register (.unmapped k) h hr rfl

/-! ### The host sequence for AdvancedHash -/

/-- Some number of steps from `s` leads to `t`. -/
def Reaches (s t : State) : Prop := ∃ k, run k s = .next t

theorem Reaches.refl (s : State) : Reaches s s := ⟨0, rfl⟩

theorem Reaches.trans {s t u : State} : Reaches s t → Reaches t u → Reaches s u := by
  rintro ⟨k, hk⟩ ⟨m, hm⟩
  exact ⟨k + m, (run_add m hk).trans hm⟩

theorem Reaches.of_step {s t : State} (h : step s = .next t) : Reaches s t := ⟨1, run_succ 0 h⟩

/-- At BUSY = 0 the WAIT is over. -/
theorem step_wait_idle {s : State} {rest : List HostOp} (hr : s.phase = .running) (hidle : s.pending = none)
    (hprog : s.program = .wait :: rest) : step s = .next { s with program := rest } := by
  have hb : s.busy = false := (busy_eq_false s).2 hidle
  rw [step_wait ⟨mover_of_idle hidle, hprog⟩ hr, hb, State.issued, takeTurn_of_idle hidle]
  rfl

/-- In the core's turn, or where the turns are used up, the pending command completes (R91; log 2). -/
theorem step_core_turn {s : State} {c : Pending} (hr : s.phase = .running) (hc : s.pending = some c)
    (hturn : s.turns.head?.getD .core = .core) : step s = .next { completed c s with turns := s.turns.tail } := by
  have hbusy : s.pending ≠ none := by simp [hc]
  rw [step_completes ⟨(mover_eq_core s).2 ⟨hr, hbusy, hturn⟩, hc⟩, takeTurn_of_pending hr hbusy]
  cases c <;> rfl

/-- In the host's turn of a busy block WAIT only polls (R59). -/
theorem step_wait_busy {s : State} {rest : List HostOp} {turns : List Agent} (hr : s.phase = .running)
    (hbusy : s.pending ≠ none) (hprog : s.program = .wait :: rest) (hturns : s.turns = .host :: turns) :
    step s = .next { s with turns := turns } := by
  have hmover : s.mover = .host := (mover_eq_host s).2 (.inr (.inr (by simp [hturns])))
  rw [step_wait ⟨hmover, hprog⟩ hr, (busy_iff s).2 hbusy, takeTurn_of_pending hr hbusy, hturns]
  rfl

/-- Where the core has the turn the command completes, and the next poll ends the WAIT. -/
theorem reaches_completed_of_core_turn {s : State} {c : Pending} {rest : List HostOp} (hr : s.phase = .running)
    (hc : s.pending = some c) (hprog : s.program = .wait :: rest) (hturn : s.turns.head?.getD .core = .core) :
    Reaches s { completed c s with program := rest, turns := s.turns.tail } :=
  (Reaches.of_step (step_core_turn hr hc hturn)).trans
    (Reaches.of_step (step_wait_idle (by simpa) (by simp) (by simpa)))

/-- WAIT outlasts the pending command, whatever the turns: each host turn before the core's is one more poll. -/
theorem reaches_completed_of_wait {s : State} {c : Pending} {rest : List HostOp} {turns : List Agent}
    (hr : s.phase = .running) (hc : s.pending = some c) (hprog : s.program = .wait :: rest) (hturns : s.turns = turns) :
    ∃ turns', Reaches s { completed c s with program := rest, turns := turns' } := by
  induction turns generalizing s with
  | nil => exact ⟨_, reaches_completed_of_core_turn hr hc hprog (by simp [hturns])⟩
  | cons agent turns ih =>
    cases agent with
    | core => exact ⟨_, reaches_completed_of_core_turn hr hc hprog (by simp [hturns])⟩
    | host =>
      obtain ⟨turns', hrest⟩ := ih (s := { s with turns := turns }) hr hc hprog rfl
      rw [show completed c { s with turns := turns } = { completed c s with program := s.program, turns := turns } from
        completed_congr c s s.pending s.program turns] at hrest
      exact ⟨turns', (Reaches.of_step (step_wait_busy hr (by simp [hc]) hprog hturns)).trans hrest⟩

/-- `CMD i; WAIT` on an idle block performs the command's own effect in full, whatever the turns (R90, R91). -/
theorem reaches_of_cmdWait {s v : State} {i : Instr} {c : Pending} {rest : List HostOp} (hr : s.phase = .running)
    (hidle : s.pending = none) (hprog : s.program = cmdWait i ++ rest) (hc : pendingOf i = some c)
    (hv : exec i s = .next v) : ∃ turns, Reaches s { v with program := rest, turns := turns } := by
  obtain ⟨turns, hwait⟩ := reaches_completed_of_wait
    (s := { s with program := .wait :: rest, pending := some c }) (rest := rest) hr rfl rfl rfl
  refine ⟨turns, (Reaches.of_step (step_cmd_accepted hr hidle hprog hc)).trans ?_⟩
  have heffect : v = completed c s := by
    rw [← toInstr_of_pendingOf hc, exec_toInstr, hidle, ← completed_pending c s] at hv
    exact (Host.Outcome.next.inj hv).symm
  rw [heffect]
  rwa [show completed c { s with program := .wait :: rest, pending := some c } =
    { completed c s with program := .wait :: rest, turns := s.turns } from completed_congr c s _ _ s.turns] at hwait

/-- A command's own effect depends neither on the host's program nor on the turns. -/
theorem exec_with_program_turns {i : Instr} {s t : State} (h : exec i s = .next t) (program : List HostOp)
    (turns : List Agent) :
    exec i { s with program := program, turns := turns } = .next { t with program := program, turns := turns } := by
  cases i <;> cases h <;> rfl

theorem execAll_with_program_turns {l : List Instr} {s t : State} (h : execAll l s = .next t) (program : List HostOp)
    (turns : List Agent) :
    execAll l { s with program := program, turns := turns } = .next { t with program := program, turns := turns } := by
  induction l generalizing s with
  | nil => cases h; rfl
  | cons i l ih =>
    obtain ⟨v, hv⟩ := exec_next i s
    rw [execAll_cons hv] at h
    rw [execAll_cons (exec_with_program_turns hv program turns), ih h]

/-- `CMD i; WAIT` for each command of a list performs their own effects one after the other, whatever the turns. -/
theorem reaches_of_cmdWaits {l : List Instr} {s u : State} {rest : List HostOp} (hl : ∀ i ∈ l, pendingOf i ≠ none)
    (hr : s.phase = .running) (hidle : s.pending = none) (hprog : s.program = l.flatMap cmdWait ++ rest)
    (hu : execAll l s = .next u) : ∃ turns, Reaches s { u with program := rest, turns := turns } := by
  induction l generalizing s u with
  | nil =>
    refine ⟨s.turns, ?_⟩
    cases hu
    rw [← show s.program = rest from hprog]
    exact Reaches.refl s
  | cons i l ih =>
    obtain ⟨hi, hl⟩ := List.forall_mem_cons.1 hl
    obtain ⟨c, hc⟩ := Option.ne_none_iff_exists'.1 hi
    obtain ⟨v, hv⟩ := exec_next i s
    obtain ⟨hpending, hphase, -⟩ := commandFrames i s v hv
    rw [List.flatMap_cons, List.append_assoc] at hprog
    rw [execAll_cons hv] at hu
    obtain ⟨turns, hfirst⟩ := reaches_of_cmdWait hr hidle hprog hc hv
    obtain ⟨turns', hothers⟩ := ih (s := { v with program := l.flatMap cmdWait ++ rest, turns := turns }) hl
      (hphase.trans hr) (hpending.trans hidle) rfl (execAll_with_program_turns hu _ turns)
    exact ⟨turns', hfirst.trans hothers⟩

/-- On an idle block reads answer the registers' values, in order, and change nothing else. -/
theorem reaches_of_reads {l : List Register} {s : State} (hr : s.phase = .running) (hidle : s.pending = none)
    (hprog : s.program = l.map readReg) :
    Reaches s { s with program := [], replies := s.replies ++ l.map s.registerValue } := by
  induction l generalizing s with
  | nil =>
    rw [List.map_nil, List.append_nil, ← show s.program = [] from hprog]
    exact Reaches.refl s
  | cons r l ih =>
    have hstep := step_read_exact ⟨mover_of_idle hidle, hprog⟩ hr (.inl ((busy_eq_false s).2 hidle))
    have hvalues : ((s.issued (l.map readReg)).reply (s.registerValue r)).registerValue = s.registerValue :=
      funext fun q => by simp
    have hothers := ih (s := (s.issued (l.map readReg)).reply (s.registerValue r)) (by simpa) (by simpa) rfl
    rw [hvalues, reply_replies, issued_replies, List.append_assoc] at hothers
    refine (Reaches.of_step hstep).trans ?_
    rw [State.issued, takeTurn_of_idle hidle] at hothers ⊢
    exact hothers

/-- The reads of the eight digest words (R60). -/
theorem reaches_of_readDigest {s : State} (hr : s.phase = .running) (hidle : s.pending = none)
    (hprog : s.program = readDigest) :
    Reaches s { s with
      program := [], replies := s.replies ++ (List.finRange 8).map fun k => s.registerValue (.digestW k) } := by
  have hreads := reaches_of_reads (l := (List.finRange 8).map .digestW) hr hidle
    (by rw [hprog, readDigest, List.map_map]; rfl)
  rw [List.map_map] at hreads
  exact hreads

/-- The sequence of R95 is `CMD c; WAIT` for the commands of the message, and then FINAL and the reads of DIGEST. -/
theorem hashSequence_eq (input salt pepper : String) : hashSequence input salt pepper =
    (messageCommands (combinedInput input salt pepper)).flatMap cmdWait ++ (cmdWait .final ++ readDigest) := by
  simp [hashSequence, messageCommands, combinedInput, absorbText, absorbBytes, List.flatMap_map]

/-- CoreComplete performs every command of a message. -/
theorem pendingOf_messageCommands {bytes : List Byte} : ∀ i ∈ messageCommands bytes, pendingOf i ≠ none := by
  simp [messageCommands, pendingOf_eq_none]

/-- Settles O36: the message's commands, whatever the turns; then the same with FINAL behind them, and the reads. -/
theorem hashSequenceComputesAdvancedHash : Obligations.HashSequenceComputesAdvancedHash := by
  intro s input salt pepper hr hidle hprog
  obtain ⟨hmessage, hhash⟩ := messageAccumulates (combinedInput input salt pepper) s
  rw [hashSequence_eq] at hprog
  constructor
  · obtain ⟨turns, k, hk⟩ := reaches_of_cmdWaits pendingOf_messageCommands hr hidle hprog hmessage
    exact ⟨k, _, hk, rfl, hidle, rfl⟩
  · have hcommands : ∀ i ∈ messageCommands (combinedInput input salt pepper) ++ [.final], pendingOf i ≠ none :=
      List.forall_mem_append.2 ⟨pendingOf_messageCommands, by simp [pendingOf]⟩
    obtain ⟨turns, hfinal⟩ := reaches_of_cmdWaits (rest := readDigest) hcommands hr hidle (by simpa using hprog) hhash
    obtain ⟨k, hk⟩ := hfinal.trans (reaches_of_readDigest hr hidle rfl)
    exact ⟨k, _, hk, rfl, hidle, rfl, rfl, rfl, rfl, rfl, rfl⟩

end Sys2Proof.Machine

/-! Proofs for 60_exceptions.md: the CMD write that overruns. -/

namespace Sys2Proof.Machine

/-- Settles O29: the overrun clause that INIT, ABSORB, FINAL, NOP and CLRERR share holds of every word, for a busy block
does not decode what is written to CMD. -/
theorem overrunDropsTheWord : Obligations.OverrunDropsTheWord := fun _ _ _ => step_cmd_write_overrun

end Sys2Proof.Machine

/-! Proofs for 70_reset_and_hazards.md: what reset sets and what happens while it is held or has not yet been applied,
the completion of a pending command, and the independence of the busy time from data. -/

namespace Sys2Proof.Machine

/-! ### Reset and the reset input -/

/-- Settles O46: both operations apply reset in every state. -/
theorem resetStepSetsEverything : Obligations.ResetStepSetsEverything := fun _ _ =>
  ⟨step_of_hostIssues, step_of_hostIssues⟩

/-- Out of the running phase an issued operation uses up no turn. -/
theorem issued_of_not_running {s : State} (h : s.phase ≠ .running) (rest : List HostOp) :
    s.issued rest = { s with program := rest } := by
  rw [State.issued, takeTurn_of_not_running h]

/-- While rst_n is 0 every read is unspecified (R115). -/
theorem readUnspecified_of_held {s : State} (h : s.phase = .held) (r : Register) : s.readUnspecified r = true := by
  simp [State.readUnspecified, h]

/-- The release of rst_n, after the first reset, only releases it (R115). -/
theorem perform_releaseReset {s : State} (h : s.phase ≠ .unknown) :
    performHostOp .releaseReset s = .next { s with phase := .running } := by
  simp [performHostOp, hostOpLegal, h]

/-- Settles O47: who moves, a read, a write and the release. -/
theorem heldResetIgnoresAccesses : Obligations.HeldResetIgnoresAccesses := by
  intro s rest hheld
  have hissued : s.issued rest = { s with program := rest } := issued_of_not_running (by simp [hheld]) rest
  have hknown : (s.issued rest).phase ≠ .unknown := by simp [hheld]
  refine ⟨(mover_eq_host s).2 (.inl (by simp [hheld])), fun off ha h => ?_, fun off v ha h => ?_, fun h => ?_⟩
  · obtain ⟨hvalue, hafter⟩ := readValue_free (readUnspecified_of_held (s := s.issued rest) (by simpa) (registerAt off))
    rw [step_of_hostIssues h, perform_read ha hknown, hvalue, hafter, hissued]
    rfl
  · rw [step_of_hostIssues h, perform_write v ha hknown, writeRegister_ignored v (.inl (by simpa)), hissued]
  · rw [step_of_hostIssues h, perform_releaseReset hknown, hissued]

/-- Before the first reset an operation that the bus defines and that applies no reset is refused (R119; log 8). -/
theorem perform_before_reset {s : State} {op : HostOp} (hlegal : hostOpLegal op = true) (hu : s.phase = .unknown)
    (hreset : op ≠ .reset) (hhold : op ≠ .holdReset) : performHostOp op s = .refused .stateUnknownBeforeReset := by
  cases op with
  | reset => exact absurd rfl hreset
  | holdReset => exact absurd rfl hhold
  | _ => simp [performHostOp, hlegal, hu]

/-- Settles O48: the two operations that apply reset answer a next state in every state, the others are refused. -/
theorem nothingButResetBeforeTheFirstReset : Obligations.NothingButResetBeforeTheFirstReset := by
  intro s rest op hu h
  rw [step_of_hostIssues h]
  constructor
  · rintro ⟨hreset, hhold⟩
    cases hlegal : hostOpLegal op with
    | false => exact ⟨_, perform_illegal hlegal _⟩
    | true => exact ⟨_, perform_before_reset hlegal (by simpa) hreset hhold⟩
  · rintro ⟨r, hr⟩
    constructor
    · rintro rfl
      cases hr
    · rintro rfl
      cases hr

/-! ### A pending command completes -/

/-- A write of a command word uses up no turn. -/
theorem writeCommand_keeps_turns {s t : State} {w : Word32} (h : writeCommand w s = .next t) : t.turns = s.turns := by
  rcases writeCommand_cases h with ⟨-, rfl⟩ | ⟨-, -, rfl⟩ | ⟨-, i, c, -, -, rfl⟩ | ⟨-, -, rfl⟩ | ⟨-, -, rfl⟩ <;>
    simp

/-- An operation of the host out of reset uses up no turn of its own, and only one that leaves nothing pending can take
the block into reset. -/
theorem performHostOp_stays_running {s t : State} {op : HostOp} (hr : s.phase = .running)
    (h : performHostOp op s = .next t) : t.turns = s.turns ∧ (t.pending = none ∨ t.phase = .running) := by
  rcases performHostOp_cases h with ⟨-, rfl⟩ | ⟨-, rfl⟩ | ⟨-, -, rfl⟩ | ⟨w, -, -, hw⟩ | ⟨off, v, -, -, -, rfl⟩ |
    ⟨off, -, -, -, rfl⟩ | ⟨-, -, ⟨-, rfl⟩ | ⟨-, rfl⟩⟩
  · simp
  · simp
  · simp
  · exact ⟨writeCommand_keeps_turns hw, .inr ((writeCommand_keeps_host hw).1.trans hr)⟩
  all_goals simp [hr]

/-- A step while a command is pending ends with nothing pending, or was a turn of the host and leaves the block out of
reset with one turn less. -/
theorem step_of_pending {s t : State} (hr : s.phase = .running) (hp : s.pending ≠ none) (h : step s = .next t) :
    t.pending = none ∨ s.turns.head? = some .host ∧ t.phase = .running ∧ t.turns = s.turns.tail := by
  have hturn : s.mover = .host → s.turns.head? = some .host := fun hm => by simpa [hr, hp] using (mover_eq_host s).1 hm
  rcases step_cases h with ⟨c, -, rfl⟩ | ⟨op, rest, hi, hop⟩ | ⟨hm, -, rfl⟩
  · exact .inl (completed_pending c _)
  · obtain ⟨hturns, hend⟩ := performHostOp_stays_running (by simpa) hop
    rw [issued_turns, takeTurn_of_pending hr hp] at hturns
    exact hend.imp_right fun hphase => ⟨hturn hi.1, hphase, hturns⟩
  · exact .inr ⟨hturn hm, by simpa, by rw [takeTurn_of_pending hr hp]⟩

/-- Settles O35, by induction on the turns: each step of the host uses one up, and with none left the core moves. -/
theorem pendingCommandCompletes : Obligations.PendingCommandCompletes := by
  intro s hs hr hp
  induction hturns : s.turns generalizing s with
  | nil =>
    obtain ⟨t, ht, -⟩ := inDomainRunsNeverStop s hs
    have hidle : t.pending = none := by simpa [hturns] using step_of_pending hr hp ht
    exact ⟨1, Nat.le_refl 1, t, run_succ 0 ht, hidle⟩
  | cons agent turns ih =>
    obtain ⟨t, ht, hdomain⟩ := inDomainRunsNeverStop s hs
    by_cases hidle : t.pending = none
    · exact ⟨1, by simp, t, run_succ 0 ht, hidle⟩
    · obtain ⟨-, hphase, hrest⟩ := (step_of_pending hr hp ht).resolve_left hidle
      obtain ⟨k, hk, u, hu, hdone⟩ := ih t hdomain hphase hidle (by rw [hrest, hturns, List.tail_cons])
      exact ⟨k + 1, by simpa using hk, u, (run_succ k ht).trans hu, hdone⟩

/-! ### The busy time does not depend on data -/

/-- Two outcomes of one kind: two next states that differ in data only, or one refusal. -/
inductive OutcomesDifferInData : Host.Outcome State Fault Refusal → Host.Outcome State Fault Refusal → Prop
  | next {s s' : State} (h : DifferInDataOnly s s') : OutcomesDifferInData (.next s) (.next s')
  | refused (r : Refusal) : OutcomesDifferInData (.refused r) (.refused r)

/-- Where the first outcome is a next state so is the second. -/
theorem OutcomesDifferInData.exists_next {s : State} {o : Host.Outcome State Fault Refusal}
    (h : OutcomesDifferInData (.next s) o) : ∃ s', o = .next s' ∧ DifferInDataOnly s s' := by
  cases h with
  | next h => exact ⟨_, rfl, h⟩

/-- Outcomes of one kind stay so when both are continued alike. -/
theorem OutcomesDifferInData.andThen {o o' : Host.Outcome State Fault Refusal}
    {f f' : State → Host.Outcome State Fault Refusal} (h : OutcomesDifferInData o o')
    (hf : ∀ s s', DifferInDataOnly s s' → OutcomesDifferInData (f s) (f' s')) :
    OutcomesDifferInData (andThen o f) (andThen o' f') := by
  cases h with
  | next h => exact hf _ _ h
  | refused r => exact .refused r

/-! #### The decoder -/

/-- A word's own DATA byte put into it gives the word again. -/
theorem withData_dataField (w : Word32) : withData w (dataField w) = w := by
  apply BitVec.eq_of_getLsbD_eq
  intro k hk
  rw [getLsbD_withData w _ hk]
  split
  · next h => simp [dataField, show k - 8 < 8 by omega, show 8 + (k - 8) = k by omega]
  · rfl

/-- Two words that are the same outside DATA decode alike but for ABSORB's operand (R52). -/
theorem decode_eq_of_mask_eq {w w' : Word32} (h : w &&& tableMask = w' &&& tableMask) :
    decode w' = (decode w).withOperand (dataField w') := by
  have hw : w' = withData w (dataField w') := by
    rw [withData, h]
    exact (withData_dataField w').symm
  rw [← decode_withData, ← hw]

/-! #### The states -/

/-- A command is pending in both states or in neither. -/
theorem DifferInDataOnly.pending_eq_none_iff {s s' : State} (h : DifferInDataOnly s s') :
    s.pending = none ↔ s'.pending = none := by
  rcases h.pending with hp | ⟨d, d', hp, hp'⟩
  · rw [hp]
  · simp [hp, hp']

theorem DifferInDataOnly.busy {s s' : State} (h : DifferInDataOnly s s') : s.busy = s'.busy := by
  rw [Bool.eq_iff_iff, busy_iff, busy_iff, ne_eq, ne_eq, h.pending_eq_none_iff]

/-- The commands pending have one latency (R126). -/
theorem DifferInDataOnly.latency {s s' : State} (h : DifferInDataOnly s s') :
    s.pending.map Pending.latency = s'.pending.map Pending.latency := by
  rcases h.pending with hp | ⟨d, d', hp, hp'⟩
  · rw [hp]
  · rw [hp, hp', Option.map_some, Option.map_some, latency_absorb d d']

/-- The same agent moves: who does depends on no data. -/
theorem DifferInDataOnly.mover {s s' : State} (h : DifferInDataOnly s s') : s.mover = s'.mover := by
  unfold State.mover
  rw [h.phase, h.turns]
  rcases h.pending with hp | ⟨d, d', hp, hp'⟩
  · rw [hp]
  · rw [hp, hp']
    cases s'.phase <;> rfl

theorem DifferInDataOnly.readUnspecified {s s' : State} (h : DifferInDataOnly s s') (r : Register) :
    s.readUnspecified r = s'.readUnspecified r := by
  rw [State.readUnspecified, State.readUnspecified, h.phase, h.busy]

/-- Neither STATUS nor a free value depends on data. -/
theorem DifferInDataOnly.readValue_status {s s' : State} (h : DifferInDataOnly s s') :
    s.readValue .status = s'.readValue .status := by
  have hword : s.statusWord = s'.statusWord := by
    rw [State.statusWord, State.statusWord, h.errOverrun, h.errIllegal, h.busy]
  rw [State.readValue, State.readValue, h.readUnspecified, h.draws]
  exact congrArg (ite _ _) hword

/-! #### Named updates of the states -/

/-- No turn is used up unless a command is pending out of reset. -/
theorem takeTurn_of_core_disabled {s : State} (h : ¬ (s.phase = .running ∧ s.pending ≠ none)) : s.takeTurn = s := by
  by_cases hr : s.phase = .running
  · exact takeTurn_of_idle (by simpa [hr] using h)
  · exact takeTurn_of_not_running hr

theorem DifferInDataOnly.takeTurn {s s' : State} (h : DifferInDataOnly s s') :
    DifferInDataOnly s.takeTurn s'.takeTurn := by
  by_cases henabled : s.phase = .running ∧ s.pending ≠ none
  · obtain ⟨hr, hp⟩ := henabled
    rw [takeTurn_of_pending hr hp, takeTurn_of_pending (h.phase ▸ hr) (mt h.pending_eq_none_iff.2 hp)]
    exact { h with turns := congrArg List.tail h.turns }
  · rw [takeTurn_of_core_disabled henabled,
      takeTurn_of_core_disabled (by rwa [ne_eq, ← h.pending_eq_none_iff, ← h.phase])]
    exact h

theorem DifferInDataOnly.issued {s s' : State} {rest rest' : List HostOp} (h : DifferInDataOnly s s')
    (hrest : List.Forall₂ OpsDifferInData rest rest') : DifferInDataOnly (s.issued rest) (s'.issued rest') :=
  { h.takeTurn with program := hrest }

theorem DifferInDataOnly.applyReset {s s' : State} (h : DifferInDataOnly s s') (phase : ResetPhase) :
    DifferInDataOnly (s.applyReset phase) (s'.applyReset phase) :=
  { h with len := rfl, errIllegal := rfl, errOverrun := rfl, pending := .inl rfl, phase := rfl }

theorem DifferInDataOnly.afterRead {s s' : State} (h : DifferInDataOnly s s') (r : Register) :
    DifferInDataOnly (s.afterRead r) (s'.afterRead r) := by
  rw [State.afterRead, State.afterRead, h.readUnspecified]
  split
  · exact { h with draws := congrArg (· + 1) h.draws }
  · exact h

theorem DifferInDataOnly.reply {s s' : State} (h : DifferInDataOnly s s') (v v' : Word32) :
    DifferInDataOnly (s.reply v) (s'.reply v') :=
  { h with replies := by simp [h.replies] }

/-- A completing command counts one byte or none, whatever the byte. -/
theorem DifferInDataOnly.completed {s s' : State} {c c' : Pending} (h : DifferInDataOnly s s')
    (hc : c = c' ∨ ∃ d d', c = .absorb d ∧ c' = .absorb d') :
    DifferInDataOnly (completed c s) (completed c' s') := by
  have hlen : (Machine.completed c s).len = (Machine.completed c' s').len := by
    rcases hc with rfl | ⟨d, d', rfl, rfl⟩
    · cases c with
      | init => simp [Machine.completed]
      | absorb d => simp [Machine.completed, h.len]
      | final => simp [Machine.completed]
    · simp [Machine.completed, h.len]
  constructor
  case len => exact hlen
  case pending => exact .inl (by simp)
  case program => simpa using h.program
  all_goals simp [h.errIllegal, h.errOverrun, h.phase, h.replies, h.turns, h.draws]

/-! #### The operations -/

/-- The command protocol on an idle block, by what the first word decodes to: the second decodes to the same with
another operand. -/
theorem writeCommand_idle_differInData {s s' : State} {w w' : Word32} (h : DifferInDataOnly s s')
    (hidle : s.pending = none) (hw : w &&& tableMask = w' &&& tableMask) :
    OutcomesDifferInData (writeCommand w s) (writeCommand w' s') := by
  have hidle' : s'.pending = none := h.pending_eq_none_iff.1 hidle
  have hdecode : decode w' = (decode w).withOperand (dataField w') := decode_eq_of_mask_eq hw
  cases hd : decode w with
  | illegal why =>
    rw [hd] at hdecode
    rw [writeCommand_illegal hidle hd, writeCommand_illegal hidle' hdecode]
    exact .next { h with errIllegal := rfl }
  | command i =>
    rw [hd] at hdecode
    cases i with
    | nop =>
      rw [writeCommand_immediate hidle hd rfl, writeCommand_immediate hidle' hdecode rfl]
      exact .next h
    | clrerr =>
      rw [writeCommand_immediate hidle hd rfl, writeCommand_immediate hidle' hdecode rfl]
      exact .next { h with errIllegal := rfl, errOverrun := rfl }
    | absorb d =>
      rw [writeCommand_accepted hidle hd rfl, writeCommand_accepted hidle' hdecode rfl]
      exact .next { h with pending := .inr ⟨d, dataField w', rfl, rfl⟩ }
    | init =>
      rw [writeCommand_accepted hidle hd rfl, writeCommand_accepted hidle' hdecode rfl]
      exact .next { h with pending := .inl rfl }
    | final =>
      rw [writeCommand_accepted hidle hd rfl, writeCommand_accepted hidle' hdecode rfl]
      exact .next { h with pending := .inl rfl }

/-- The command protocol drops both words or, on an idle block, treats them alike. -/
theorem writeCommand_differInData {s s' : State} {w w' : Word32} (h : DifferInDataOnly s s')
    (hw : w &&& tableMask = w' &&& tableMask) : OutcomesDifferInData (writeCommand w s) (writeCommand w' s') := by
  by_cases hidle : s.pending = none
  · exact writeCommand_idle_differInData h hidle hw
  · rw [writeCommand_busy w hidle, writeCommand_busy w' (mt h.pending_eq_none_iff.2 hidle)]
    exact .next { h with errOverrun := rfl }

/-- Writes of one register, whose words at CMD differ in DATA only. -/
theorem writeRegister_differInData {s s' : State} {r : Register} {v v' : Word32} (h : DifferInDataOnly s s')
    (hv : v &&& tableMask = v' &&& tableMask) :
    OutcomesDifferInData (writeRegister r v s) (writeRegister r v' s') := by
  by_cases hignored : s.phase = .held ∨ r ≠ .cmd
  · rw [writeRegister_ignored v hignored, writeRegister_ignored v' (h.phase ▸ hignored)]
    exact .next h
  · obtain ⟨hheld, rfl⟩ : s.phase ≠ .held ∧ r = .cmd := by simpa using hignored
    rw [writeRegister_cmd v hheld, writeRegister_cmd v' (h.phase ▸ hheld)]
    exact writeCommand_differInData h hv

/-- Polls read one BUSY, and go on or poll again alike. -/
theorem pollStatus_differInData {s s' : State} (h : DifferInDataOnly s s') :
    OutcomesDifferInData (pollStatus s) (pollStatus s') := by
  rw [pollStatus, pollStatus, h.readValue_status]
  split
  · exact .next { h.afterRead .status with program := .cons (.inl rfl) h.program }
  · exact .next (h.afterRead .status)

/-- One operation that both hosts issue is refused in both states or in neither, and keeps them apart in data only. -/
theorem performHostOp_same_differInData {s s' : State} (op : HostOp) (h : DifferInDataOnly s s') :
    OutcomesDifferInData (performHostOp op s) (performHostOp op s') := by
  by_cases happlies : op = .reset ∨ op = .holdReset
  · rcases happlies with rfl | rfl <;> exact .next (h.applyReset _)
  obtain ⟨hreset, hhold⟩ := not_or.1 happlies
  cases hlegal : hostOpLegal op with
  | false =>
    rw [perform_illegal hlegal, perform_illegal hlegal]
    exact .refused _
  | true =>
    by_cases hu : s.phase = .unknown
    · rw [perform_before_reset hlegal hu hreset hhold, perform_before_reset hlegal (h.phase ▸ hu) hreset hhold]
      exact .refused _
    have hu' : s'.phase ≠ .unknown := h.phase ▸ hu
    cases op with
    | reset => exact absurd rfl hreset
    | holdReset => exact absurd rfl hhold
    | releaseReset =>
      rw [perform_releaseReset hu, perform_releaseReset hu']
      exact .next { h with phase := rfl }
    | write width off v =>
      obtain ⟨rfl, ha⟩ := (accessLegal_eq_true width off).1 hlegal
      rw [perform_write v ha hu, perform_write v ha hu']
      exact writeRegister_differInData h rfl
    | read width off =>
      obtain ⟨rfl, ha⟩ := (accessLegal_eq_true width off).1 hlegal
      rw [perform_read ha hu, perform_read ha hu']
      exact .next ((h.afterRead _).reply _ _)
    | wait =>
      rw [perform_wait hu, perform_wait hu']
      exact pollStatus_differInData h

/-- Writes to CMD of two words that differ in DATA only. -/
theorem performHostOp_cmd_differInData {s s' : State} {w w' : Word32} (h : DifferInDataOnly s s')
    (hw : w &&& tableMask = w' &&& tableMask) :
    OutcomesDifferInData (performHostOp (.write .w32 Register.cmd.offset w) s)
      (performHostOp (.write .w32 Register.cmd.offset w') s') := by
  have hlegal (v : Word32) : hostOpLegal (.write .w32 Register.cmd.offset v) = true := rfl
  by_cases hu : s.phase = .unknown
  · rw [perform_before_reset (hlegal w) hu (by simp) (by simp),
      perform_before_reset (hlegal w') (h.phase ▸ hu) (by simp) (by simp)]
    exact .refused _
  · rw [perform_write w (offset_aligned .cmd) hu, perform_write w' (offset_aligned .cmd) (h.phase ▸ hu)]
    exact writeRegister_differInData h hw

theorem performHostOp_differInData {s s' : State} {op op' : HostOp} (h : DifferInDataOnly s s')
    (hop : OpsDifferInData op op') : OutcomesDifferInData (performHostOp op s) (performHostOp op' s') := by
  rcases hop with rfl | ⟨w, w', rfl, rfl, hw⟩
  · exact performHostOp_same_differInData op h
  · exact performHostOp_cmd_differInData h hw

/-! #### Steps and runs -/

/-- The other state has the same command pending, or an ABSORB of another byte. -/
theorem DifferInDataOnly.exists_pending {s s' : State} {c : Pending} (h : DifferInDataOnly s s')
    (hc : s.pending = some c) :
    ∃ c', s'.pending = some c' ∧ (c = c' ∨ ∃ d d', c = .absorb d ∧ c' = .absorb d') := by
  rcases h.pending with hp | ⟨d, d', hp, hp'⟩
  · exact ⟨c, hp ▸ hc, .inl rfl⟩
  · exact ⟨.absorb d', hp', .inr ⟨d, d', Option.some.inj (hc.symm.trans hp), rfl⟩⟩

/-- One step, by who moves: the same agent in both states. -/
theorem step_differInData {s s' : State} (h : DifferInDataOnly s s') : OutcomesDifferInData (step s) (step s') := by
  have hprogram := h.program
  rcases step_trichotomy s with ⟨c, hm, hc⟩ | ⟨op, rest, hm, hprog⟩ | ⟨hm, hprog⟩
  · obtain ⟨c', hc', hdata⟩ := h.exists_pending hc
    rw [step_completes ⟨hm, hc⟩, step_completes ⟨h.mover ▸ hm, hc'⟩]
    exact .next (h.takeTurn.completed hdata)
  · rw [hprog] at hprogram
    obtain ⟨op', rest', hop, hrest, hprog'⟩ := List.forall₂_cons_left_iff.1 hprogram
    rw [step_of_hostIssues ⟨hm, hprog⟩, step_of_hostIssues ⟨h.mover ▸ hm, hprog'⟩]
    exact performHostOp_differInData (h.issued hrest) hop
  · rw [hprog] at hprogram
    have hprog' : s'.program = [] := List.forall₂_nil_left_iff.1 hprogram
    rw [step_of_host_done hm hprog, step_of_host_done (h.mover ▸ hm) hprog']
    exact .next h.takeTurn

/-- Runs of one length stay in step. -/
theorem run_differInData (k : Nat) {s s' : State} (h : DifferInDataOnly s s') :
    OutcomesDifferInData (run k s) (run k s') := by
  induction k generalizing s s' with
  | zero => exact .next h
  | succ k ih =>
    rw [run_succ_eq, run_succ_eq]
    exact (step_differInData h).andThen fun _ _ => ih

/-- Settles O49, by induction on the steps (`run_differInData`), each step keeping two states in step. -/
theorem latencyIsDataIndependent : Obligations.LatencyIsDataIndependent := by
  intro k s s' t h hrun
  have houtcomes := run_differInData k h
  rw [hrun] at houtcomes
  obtain ⟨t', ht', hdata⟩ := houtcomes.exists_next
  exact ⟨t', ht', hdata, hdata.busy, hdata.latency, hdata.errIllegal, hdata.errOverrun, hdata.program.length_eq⟩

end Sys2Proof.Machine
